-- ==== Sys2Proof/Word.lean ====
section
/-!
DEFINITION. The words of the block and their plainest arithmetic: the byte (R41), the 16-bit value and its two bytes,
big-endian (R42), and the reading of a byte sequence as one number, first byte most significant.
-/

namespace Sys2Proof

/-- A byte: an integer in 0..255 (R11, R41). -/
abbrev Byte := BitVec 8

/-- A 16-bit unsigned value (R11, R64). -/
abbrev U16 := BitVec 16

/-- The more significant byte, `v[15:8]` (R42). -/
def hiByte (v : U16) : Byte := v.extractLsb' 8 8

/-- The less significant byte, `v[7:0]` (R42). -/
def loByte (v : U16) : Byte := v.extractLsb' 0 8

/-- The 16-bit value whose byte at the lower index is `hi` (R42, R64). -/
def u16 (hi lo : Byte) : U16 := hi ++ lo

/-- A byte sequence as one number, the first byte in the top bits (R70: "byte 0 in bits 79:72"). -/
def beNat (bs : List Byte) : Nat := bs.foldl (fun acc b => acc * 256 + b.toNat) 0

/-- The `n` bytes of a number of `8 * n` bits, the top bits first: the inverse of `beNat`. -/
def bytesOfNat : Nat → Nat → List Byte
  | 0, _ => []
  | n + 1, w => BitVec.ofNat 8 (w / 256 ^ n) :: bytesOfNat n w

/-- The half-open slice `s[a:b)`, empty when `a >= b` (R12). -/
def slice (s : List Byte) (a b : Nat) : List Byte := (s.drop a).take (b - a)

end Sys2Proof
end

