-- ==== Sys2Proof/Config.lean ====
section
/-!
DEFINITION. The implementation parameters of 00_scope.md R9: the constants of an instance, all nine of them fields of one record
(R10), with their constraints and the spec's defaults; and the free values of the two port formats the spec leaves OPEN.
-/

namespace Sys2Proof

/-- The parameters of one instance (R9, R10). No operation writes them. -/
structure Config where
  /-- MAX_BUF: EXTRACT truncates when `len(buf)` is above it (R95). -/
  maxBuf : Nat
  /-- TAIL_KEEP: bytes kept by a truncation (R95). -/
  tailKeep : Nat
  /-- POWER_SCALE: the factor in derived power (R117). -/
  powerScale : Nat
  /-- END_SCAN_SKIP: where the end-marker scan begins, counted from the start marker's first byte (R93). -/
  endScanSkip : Nat
  /-- BUF_PHYS_CAP: the physical capacity of RawBuffer; `none` is unbounded (R91). -/
  bufPhysCap : Option Nat
  /-- OVF_W: the width of the overflow counter (R21). -/
  ovfW : Nat
  /-- TS_W: the width of the timestamp (R124). -/
  tsW : Nat
  /-- RES_REPR: the port representation of `resistance` (R116), the function by its graph: pairs of a rational and its port
  word. A rational that is not listed is carried by a word the spec leaves OPEN (`openResRepr`; notes/assumptions 15). -/
  resRepr : List (Rat × Nat)
  /-- VAL_REPR: the port representation of the command value (R134), the function by its graph: pairs of a port word and the
  rational it denotes, `none` for the not-a-number token. What a word denotes that is not listed is OPEN (`openValRepr`;
  notes/assumptions 14). -/
  valRepr : List (Nat × Option Rat)
  deriving DecidableEq, Repr

namespace Config

/-- The default of every parameter (the column "Decision" of R9); the two OPEN formats have no word fixed. -/
def defaults : Config where
  maxBuf := 1024
  tailKeep := 100
  powerScale := 1000
  endScanSkip := 1
  bufPhysCap := none
  ovfW := 32
  tsW := 64
  resRepr := []
  valRepr := []

/-- BUF_PHYS_CAP is unbounded, or at least MAX_BUF + 1 (R9). -/
def capAllowed (c : Config) : Bool :=
  match c.bufPhysCap with
  | none => true
  | some n => decide (c.maxBuf + 1 ≤ n)

/-- The column "Constraint" of R9, every row of it. -/
def admissible (c : Config) : Bool :=
  decide (1 ≤ c.maxBuf) && decide (c.tailKeep ≤ c.maxBuf) && decide (1 ≤ c.powerScale)
    && (decide (c.endScanSkip = 1) || decide (c.endScanSkip = 2))
    && c.capAllowed && decide (1 ≤ c.ovfW) && decide (1 ≤ c.tsW)

/-- The largest value of the overflow counter, `2^OVF_W - 1` (R21). -/
def ovfMax (c : Config) : Nat := 2 ^ c.ovfW - 1

/-- The word of a rational that an instance's RES_REPR does not list: a free value of which nothing is assumed but that it
depends on the rational alone (R116, D13). -/
opaque openResRepr : Rat → Nat

/-- What a word that an instance's VAL_REPR does not list denotes: a free value, a rational or the not-a-number token (R9, R134,
D20, D25). -/
opaque openValRepr : Nat → Option Rat

end Config

/-- N_CH: channels per Reading, fixed (R9). -/
def nCh : Nat := 3

/-- CH_STRIDE: byte distance between the same field of consecutive channels, fixed (R9). -/
def chStride : Nat := 10

/-- PKT_LEN: command packet length in bytes, fixed (R9). -/
def pktLen : Nat := 10

/-- U16_MAX: the clamp bound of the command value, fixed (R9). -/
def u16Max : Nat := 65535

end Sys2Proof
end

