-- ==== Sys2Proof/Syntax.lean ====
section
/-!
DEFINITION. The syntax of the block: the operand types of the operations (10_state.md R29 to R33), one constructor of `Instr`
for every row of spec/opcode_table.json, and the requests a caller presents, which the decoder reads.
-/

namespace Sys2Proof

/-- A channel of the block (R18). -/
inductive Channel where
  | ch1
  | ch2
  | ch3
  deriving DecidableEq, Repr

/-- A method of a command: current, resistance or power setpoint (R32). -/
inductive Method where
  | i
  | r
  | p
  deriving DecidableEq, Repr

/-- ENCODE's channel operand: a recognised identifier or an unrecognised port value (R32, R77). -/
inductive ChannelId where
  | known (c : Channel)
  | unrecognised (code : Byte)
  deriving DecidableEq, Repr

/-- ENCODE's method operand: a recognised identifier or an unrecognised port value (R32, R77). -/
inductive MethodId where
  | known (m : Method)
  | unrecognised (code : Byte)
  deriving DecidableEq, Repr

/-- ENCODE's value operand (R32, R134): a rational, a word of the port format VAL_REPR, or `NaN_TOKEN`. -/
inductive CmdValue where
  | number (q : Rat)
  | portWord (w : Nat)
  | nan
  deriving DecidableEq, Repr

/-- The bytes of one channel in a telemetry frame (R62): voltage, an unread byte, current, an unread byte, mode,
ancillary. The unread bytes are kept, so no bit of an encoding is dropped. -/
structure ChanGroup where
  voltage : U16
  unread1 : Byte
  current : U16
  unread2 : Byte
  mode : Byte
  ancillary : U16
  deriving DecidableEq, Repr

/-- The three 16-bit registers of one channel (R18): V, I and G. -/
structure RawRegs where
  v : U16
  i : U16
  g : U16
  deriving DecidableEq, Repr

/-- One constructor per row of spec/opcode_table.json. The first nine are the operations of R75 and R170; the others are
the encodings R81 calls labels, each with the use the block makes of it (notes/assumptions 6 to 10). -/
inductive Instr where
  /-- NOP (R75). -/
  | nop
  /-- APPEND `bs` (R90). -/
  | append (bs : List Byte)
  /-- EXTRACT (R92). -/
  | extract
  /-- STATUS (R100). -/
  | status
  /-- DECODE `F`, `ts` (R110). -/
  | decode (frame : List Byte) (ts : Nat)
  /-- ENCODE `channel`, `method`, `value` (R130). -/
  | encode (channel : ChannelId) (method : MethodId) (value : CmdValue)
  /-- RESERVED.OP6 (R75). -/
  | reservedOp6
  /-- RESERVED.OP7 (R75). -/
  | reservedOp7
  /-- RESET, the input `rst` (R170). -/
  | reset
  /-- MARKER.START on the serial line (R60). -/
  | markerStart
  /-- MARKER.END on the serial line (R60). -/
  | markerEnd
  /-- CMD: a packet with a method code outside 1..3, or any packet by its fields (R70). -/
  | cmd (cc mc : Byte) (value : U16)
  /-- CMD.I: method code 1 (R72). -/
  | cmdI (cc : Byte) (value : U16)
  /-- CMD.R: method code 2 (R72). -/
  | cmdR (cc : Byte) (value : U16)
  /-- CMD.P: method code 3 (R72). -/
  | cmdP (cc : Byte) (value : U16)
  /-- TLM.FRAME33: the clean three-channel frame (R62). -/
  | tlmFrame33 (g1 : ChanGroup) (x11 : Byte) (g2 : ChanGroup) (x21 : Byte) (g3 : ChanGroup) (ts : Nat)
  /-- TLM.FRAME13: the clean one-channel frame (R65). -/
  | tlmFrame13 (g1 : ChanGroup) (ts : Nat)
  /-- TLM.FRAME23: the clean two-channel frame (R65). -/
  | tlmFrame23 (g1 : ChanGroup) (x11 : Byte) (g2 : ChanGroup) (ts : Nat)
  /-- MODE.CURRENT: mode byte 1 of channel `k` over the registers `regs` (R66, R118). -/
  | modeCurrent (k : Channel) (regs : RawRegs) (ts : Nat)
  /-- MODE.RESISTANCE: mode byte 2 (R66, R118). -/
  | modeResistance (k : Channel) (regs : RawRegs) (ts : Nat)
  /-- MODE.POWER: mode byte 3 (R66, R118). -/
  | modePower (k : Channel) (regs : RawRegs) (ts : Nat)
  /-- MODE.NONE: any other mode byte (R66, R118). -/
  | modeNone (mode : Byte) (k : Channel) (regs : RawRegs) (ts : Nat)
  /-- ERR.OK: the result code 0 with the packet of these fields (R151). -/
  | errOk (c : Channel) (m : Method) (n : U16)
  /-- ERR.INVALID_CHANNEL: the result code 1 (R151). -/
  | errInvalidChannel
  /-- ERR.INVALID_METHOD: the result code 2 (R151). -/
  | errInvalidMethod
  /-- ERR.INVALID_VALUE: the result code 3 (R151). -/
  | errInvalidValue
  deriving DecidableEq, Repr

/-- The formats of spec/opcode_table.json (R81). -/
inductive Format where
  | op3
  | pin
  | mark16
  | cmd80
  | tlm264
  | tlm184
  | tlm104
  | mode8
  | err2
  deriving DecidableEq, Repr

/-- The format of an instruction's row in spec/opcode_table.json. -/
def Instr.format : Instr → Format
  | .nop => .op3
  | .append _ => .op3
  | .extract => .op3
  | .status => .op3
  | .decode _ _ => .op3
  | .encode _ _ _ => .op3
  | .reservedOp6 => .op3
  | .reservedOp7 => .op3
  | .reset => .pin
  | .markerStart => .mark16
  | .markerEnd => .mark16
  | .cmd _ _ _ => .cmd80
  | .cmdI _ _ => .cmd80
  | .cmdR _ _ => .cmd80
  | .cmdP _ _ => .cmd80
  | .tlmFrame33 _ _ _ _ _ _ => .tlm264
  | .tlmFrame13 _ _ => .tlm104
  | .tlmFrame23 _ _ _ _ => .tlm184
  | .modeCurrent _ _ _ => .mode8
  | .modeResistance _ _ _ => .mode8
  | .modePower _ _ _ => .mode8
  | .modeNone _ _ _ _ => .mode8
  | .errOk _ _ _ => .err2
  | .errInvalidChannel => .err2
  | .errInvalidMethod => .err2
  | .errInvalidValue => .err2

/-- What the port `cmd_value` carries (R76): the rational that is meant, or a raw word of the OPEN format VAL_REPR. -/
inductive PortNumber where
  | rational (q : Rat)
  | word (w : Nat)
  deriving DecidableEq, Repr

/-- The input ports of R76, one field each. An operation reads only the ports the table's column "Used by" gives it. -/
structure Ports where
  rst : BitVec 1 := 0
  op : BitVec 3 := 0
  inBytes : List Byte := []
  decFrame : List Byte := []
  decTs : Nat := 0
  cmdChannel : Byte := 0
  cmdMethod : Byte := 0
  cmdValueOk : BitVec 1 := 0
  cmdValue : PortNumber := .rational 0
  deriving DecidableEq, Repr

/-- What the caller presents to the block in one step: values on the input ports, or one of the encodings the table lists
beside the operations, with the operands its row gives no bits. -/
inductive Request where
  /-- Values on the ports of R76. -/
  | ports (p : Ports)
  /-- Bytes as they lie on the serial line, and the timestamp port (rows MARK16, CMD80, TLM264, TLM184, TLM104). -/
  | wire (bs : List Byte) (ts : Nat)
  /-- A mode byte in the frame of channel `k`, with that channel's registers (rows MODE8). -/
  | modeByte (mode : Byte) (k : Channel) (regs : RawRegs) (ts : Nat)
  /-- A code of the port `enc_err`, with the fields of the packet beside it (rows ERR2). -/
  | errCode (code : BitVec 2) (c : Channel) (m : Method) (n : U16)
  /-- A word of a width that no row of the table has. -/
  | noFormat (nbits w : Nat)
  deriving DecidableEq, Repr

end Sys2Proof
end

