-- ==== Sys2Proof/WellFormed.lean ====
section
/-!
DEFINITION. Which instructions are well formed: the checks on operands that the encodings of 30_encoding.md impose.
-/

namespace Sys2Proof

/-- A channel port value that is none of the recognised 1, 2, 3 (R77). -/
def channelCodeUnrecognised (code : Byte) : Bool := decide (code ≠ 1 ∧ code ≠ 2 ∧ code ≠ 3)

/-- A method port value that is none of the recognised letters `I` 0x49, `R` 0x52, `P` 0x50 (R77). -/
def methodCodeUnrecognised (code : Byte) : Bool := decide (code ≠ 0x49 ∧ code ≠ 0x52 ∧ code ≠ 0x50)

def ChannelId.wf : ChannelId → Bool
  | .known _ => true
  | .unrecognised code => channelCodeUnrecognised code

def MethodId.wf : MethodId → Bool
  | .known _ => true
  | .unrecognised code => methodCodeUnrecognised code

/-- A timestamp fits the port of TS_W bits (R76, R124). -/
def tsFits (c : Config) (ts : Nat) : Bool := decide (ts < 2 ^ c.tsW)

/-- A byte that the rows with a fixed code 1, 2, 3 do not take (R72 for method codes, R66 for mode bytes). -/
def outsideOneToThree (b : Byte) : Bool := decide (b ≠ 1 ∧ b ≠ 2 ∧ b ≠ 3)

/-- Well-formedness of an instruction for an instance: each operand is a value its port or its row can carry. -/
def Instr.wf (c : Config) : Instr → Bool
  | .nop => true
  | .append _ => true
  | .extract => true
  | .status => true
  | .decode _ ts => tsFits c ts
  | .encode ch m _ => ch.wf && m.wf
  | .reservedOp6 => true
  | .reservedOp7 => true
  | .reset => true
  | .markerStart => true
  | .markerEnd => true
  | .cmd _ mc _ => outsideOneToThree mc
  | .cmdI _ _ => true
  | .cmdR _ _ => true
  | .cmdP _ _ => true
  | .tlmFrame33 _ _ _ _ _ ts => tsFits c ts
  | .tlmFrame13 _ ts => tsFits c ts
  | .tlmFrame23 _ _ _ ts => tsFits c ts
  | .modeCurrent _ _ ts => tsFits c ts
  | .modeResistance _ _ ts => tsFits c ts
  | .modePower _ _ ts => tsFits c ts
  | .modeNone m _ _ ts => outsideOneToThree m && tsFits c ts
  | .errOk _ _ _ => true
  | .errInvalidChannel => true
  | .errInvalidMethod => true
  | .errInvalidValue => true

end Sys2Proof
end

