-- ==== Sys2Proof/Decode.lean ====
section
/-!
DEFINITION. The decoder, total on every request and rejecting by name, and after it the encoder written from the same tables:
the operation select and ports of R75 to R77, the markers of R60, the packet of R70 to R72, the frame layout of R62 and R65,
the mode bytes of R66 and the error codes of R151.
-/

namespace Sys2Proof

/-- Why a request is no encoding of the table. -/
inductive DecodeError where
  /-- Two bytes that are neither marker (R60). -/
  | notAMarker
  /-- Ten bytes without the constants of a command packet (R70). -/
  | notAPacket
  /-- 13, 23 or 33 bytes that do not begin and end with the markers (R61). -/
  | notAFrame
  /-- A byte sequence of a length that no row of the table has (R81). -/
  | noWireFormat
  /-- A word of a width that no row of the table has (R81). -/
  | noFormat
  deriving DecidableEq, Repr

/-! ### Fields of a byte sequence -/

/-- The byte at index `a` of a sequence known to hold it. -/
def byteAt (bs : List Byte) (a : Nat) : Byte := bs.getD a 0

/-- The 16-bit value at `a`, `a + 1` of a sequence known to hold it, big-endian (R42). -/
def u16At (bs : List Byte) (a : Nat) : U16 := u16 (byteAt bs a) (byteAt bs (a + 1))

/-- The start marker, 0x3C 0x3A (R60). -/
def startMarker : Byte × Byte := (0x3C, 0x3A)

/-- The end marker, 0x3A 0x3E (R60). -/
def endMarker : Byte × Byte := (0x3A, 0x3E)

/-- The bytes of one channel, the group that begins at index `a` (R62: `a` is 2, 12 or 22). -/
def groupAt (bs : List Byte) (a : Nat) : ChanGroup where
  voltage := u16At bs a
  unread1 := byteAt bs (a + 2)
  current := u16At bs (a + 3)
  unread2 := byteAt bs (a + 5)
  mode := byteAt bs (a + 6)
  ancillary := u16At bs (a + 7)

/-- The nine bytes of one channel in frame order (R62). -/
def ChanGroup.bytes (g : ChanGroup) : List Byte :=
  [hiByte g.voltage, loByte g.voltage, g.unread1, hiByte g.current, loByte g.current, g.unread2, g.mode,
    hiByte g.ancillary, loByte g.ancillary]

/-! ### The decoder -/

/-- `cmd_channel` (R77). -/
def channelOfPort (b : Byte) : ChannelId :=
  if b = 1 then .known .ch1
  else if b = 2 then .known .ch2
  else if b = 3 then .known .ch3
  else .unrecognised b

/-- `cmd_method` (R77). -/
def methodOfPort (b : Byte) : MethodId :=
  if b = 0x49 then .known .i
  else if b = 0x52 then .known .r
  else if b = 0x50 then .known .p
  else .unrecognised b

/-- `cmd_value_ok` and `cmd_value` (R76). -/
def valueOfPorts (ok : BitVec 1) (v : PortNumber) : CmdValue :=
  if ok = 1 then
    match v with
    | .rational q => .number q
    | .word w => .portWord w
  else .nan

/-- The operation select (R75); `rst` overrides any `op` (R75, R170). -/
def decodePorts (p : Ports) : Instr :=
  if p.rst = 1 then .reset
  else if p.op = 0 then .nop
  else if p.op = 1 then .append p.inBytes
  else if p.op = 2 then .extract
  else if p.op = 3 then .status
  else if p.op = 4 then .decode p.decFrame p.decTs
  else if p.op = 5 then
    .encode (channelOfPort p.cmdChannel) (methodOfPort p.cmdMethod) (valueOfPorts p.cmdValueOk p.cmdValue)
  else if p.op = 6 then .reservedOp6
  else .reservedOp7

/-- Rows MARKER.START and MARKER.END (R60). -/
def decodeMarker (bs : List Byte) : Except DecodeError Instr :=
  if (byteAt bs 0, byteAt bs 1) = startMarker then .ok .markerStart
  else if (byteAt bs 0, byteAt bs 1) = endMarker then .ok .markerEnd
  else .error .notAMarker

/-- The constants of a command packet at their positions (R70). -/
def packetShape (bs : List Byte) : Bool :=
  byteAt bs 0 == 0x3C && byteAt bs 1 == 0x3A && byteAt bs 3 == 0x3A && byteAt bs 5 == 0x3A
    && byteAt bs 8 == 0x3A && byteAt bs 9 == 0x3E

/-- Rows CMD.I, CMD.R, CMD.P for the method codes 1, 2, 3 and CMD for any other (R70 to R72). -/
def decodePacket (bs : List Byte) : Except DecodeError Instr :=
  if packetShape bs then
    if byteAt bs 4 = 1 then .ok (.cmdI (byteAt bs 2) (u16At bs 6))
    else if byteAt bs 4 = 2 then .ok (.cmdR (byteAt bs 2) (u16At bs 6))
    else if byteAt bs 4 = 3 then .ok (.cmdP (byteAt bs 2) (u16At bs 6))
    else .ok (.cmd (byteAt bs 2) (byteAt bs 4) (u16At bs 6))
  else .error .notAPacket

/-- A frame's own markers: the first two bytes and the last two (R61). -/
def frameShape (bs : List Byte) : Bool :=
  byteAt bs 0 == 0x3C && byteAt bs 1 == 0x3A && byteAt bs (bs.length - 2) == 0x3A
    && byteAt bs (bs.length - 1) == 0x3E

/-- Bytes on the serial line; the length tells the row (R81: 2, 10, 13, 23, 33 bytes). -/
def decodeWire (bs : List Byte) (ts : Nat) : Except DecodeError Instr :=
  match bs.length with
  | 2 => decodeMarker bs
  | 10 => decodePacket bs
  | 13 => if frameShape bs then .ok (.tlmFrame13 (groupAt bs 2) ts) else .error .notAFrame
  | 23 =>
    if frameShape bs then .ok (.tlmFrame23 (groupAt bs 2) (byteAt bs 11) (groupAt bs 12) ts)
    else .error .notAFrame
  | 33 =>
    if frameShape bs then
      .ok (.tlmFrame33 (groupAt bs 2) (byteAt bs 11) (groupAt bs 12) (byteAt bs 21) (groupAt bs 22) ts)
    else .error .notAFrame
  | _ => .error .noWireFormat

/-- Rows MODE.CURRENT, MODE.RESISTANCE, MODE.POWER and MODE.NONE (R66): the comparison is on the whole byte. -/
def decodeMode (mode : Byte) (k : Channel) (regs : RawRegs) (ts : Nat) : Instr :=
  if mode = 1 then .modeCurrent k regs ts
  else if mode = 2 then .modeResistance k regs ts
  else if mode = 3 then .modePower k regs ts
  else .modeNone mode k regs ts

/-- Rows ERR.OK, ERR.INVALID_CHANNEL, ERR.INVALID_METHOD, ERR.INVALID_VALUE (R151). -/
def decodeErr (code : BitVec 2) (c : Channel) (m : Method) (n : U16) : Instr :=
  if code = 0 then .errOk c m n
  else if code = 1 then .errInvalidChannel
  else if code = 2 then .errInvalidMethod
  else .errInvalidValue

/-- The decoder: total, rejecting by name. -/
def decode : Request → Except DecodeError Instr
  | .ports p => .ok (decodePorts p)
  | .wire bs ts => decodeWire bs ts
  | .modeByte mode k regs ts => .ok (decodeMode mode k regs ts)
  | .errCode code c m n => .ok (decodeErr code c m n)
  | .noFormat _ _ => .error .noFormat

/-! ### The encoder -/

/-- The channel code on the wire and the recognised value of `cmd_channel`: 1, 2, 3 (R71, R77). -/
def Channel.code : Channel → Byte
  | .ch1 => 1
  | .ch2 => 2
  | .ch3 => 3

/-- The recognised value of `cmd_method`: the upper-case ASCII letter (R77). -/
def Method.letter : Method → Byte
  | .i => 0x49
  | .r => 0x52
  | .p => 0x50

/-- The method code on the wire: I is 1, R is 2, P is 3 (R72). -/
def Method.code : Method → Byte
  | .i => 1
  | .r => 2
  | .p => 3

def ChannelId.port : ChannelId → Byte
  | .known c => c.code
  | .unrecognised code => code

def MethodId.port : MethodId → Byte
  | .known m => m.letter
  | .unrecognised code => code

def CmdValue.portOk : CmdValue → BitVec 1
  | .number _ => 1
  | .portWord _ => 1
  | .nan => 0

def CmdValue.portValue : CmdValue → PortNumber
  | .number q => .rational q
  | .portWord w => .word w
  | .nan => .rational 0

/-- The ten bytes of a command packet in their fixed order (R70). -/
def packetBytes (cc mc : Byte) (value : U16) : List Byte :=
  [0x3C, 0x3A, cc, 0x3A, mc, 0x3A, hiByte value, loByte value, 0x3A, 0x3E]

/-- The 13 bytes of the clean one-channel frame (R62, R65). -/
def frame13Bytes (g1 : ChanGroup) : List Byte := [0x3C, 0x3A] ++ g1.bytes ++ [0x3A, 0x3E]

/-- The 23 bytes of the clean two-channel frame (R62, R65). -/
def frame23Bytes (g1 : ChanGroup) (x11 : Byte) (g2 : ChanGroup) : List Byte :=
  [0x3C, 0x3A] ++ g1.bytes ++ [x11] ++ g2.bytes ++ [0x3A, 0x3E]

/-- The 33 bytes of the clean three-channel frame (R62, R65). -/
def frame33Bytes (g1 : ChanGroup) (x11 : Byte) (g2 : ChanGroup) (x21 : Byte) (g3 : ChanGroup) : List Byte :=
  [0x3C, 0x3A] ++ g1.bytes ++ [x11] ++ g2.bytes ++ [x21] ++ g3.bytes ++ [0x3A, 0x3E]

/-- The encoder: the request that presents an instruction. Ports an operation does not use are 0. -/
def encode : Instr → Request
  | .nop => .ports { op := 0 }
  | .append bs => .ports { op := 1, inBytes := bs }
  | .extract => .ports { op := 2 }
  | .status => .ports { op := 3 }
  | .decode frame ts => .ports { op := 4, decFrame := frame, decTs := ts }
  | .encode ch m v =>
    .ports { op := 5, cmdChannel := ch.port, cmdMethod := m.port, cmdValueOk := v.portOk, cmdValue := v.portValue }
  | .reservedOp6 => .ports { op := 6 }
  | .reservedOp7 => .ports { op := 7 }
  | .reset => .ports { rst := 1 }
  | .markerStart => .wire [0x3C, 0x3A] 0
  | .markerEnd => .wire [0x3A, 0x3E] 0
  | .cmd cc mc value => .wire (packetBytes cc mc value) 0
  | .cmdI cc value => .wire (packetBytes cc 1 value) 0
  | .cmdR cc value => .wire (packetBytes cc 2 value) 0
  | .cmdP cc value => .wire (packetBytes cc 3 value) 0
  | .tlmFrame33 g1 x11 g2 x21 g3 ts => .wire (frame33Bytes g1 x11 g2 x21 g3) ts
  | .tlmFrame13 g1 ts => .wire (frame13Bytes g1) ts
  | .tlmFrame23 g1 x11 g2 ts => .wire (frame23Bytes g1 x11 g2) ts
  | .modeCurrent k regs ts => .modeByte 1 k regs ts
  | .modeResistance k regs ts => .modeByte 2 k regs ts
  | .modePower k regs ts => .modeByte 3 k regs ts
  | .modeNone mode k regs ts => .modeByte mode k regs ts
  | .errOk c m n => .errCode 0 c m n
  | .errInvalidChannel => .errCode 1 .ch1 .i 0
  | .errInvalidMethod => .errCode 2 .ch1 .i 0
  | .errInvalidValue => .errCode 3 .ch1 .i 0

/-- The format of the table that a request is written in (R81); `none` where no row has its width. -/
def Request.format : Request → Option Format
  | .ports p => some (if p.rst = 1 then .pin else .op3)
  | .wire bs _ =>
    match bs.length with
    | 2 => some .mark16
    | 10 => some .cmd80
    | 13 => some .tlm104
    | 23 => some .tlm184
    | 33 => some .tlm264
    | _ => none
  | .modeByte _ _ _ _ => some .mode8
  | .errCode _ _ _ _ => some .err2
  | .noFormat _ _ => none

/-! ### The words of spec/opcode_table.json -/

/-- The request of a table row's word: a number of `nbits` bits numbered as the table numbers them, so byte 0 of a byte
sequence is its top byte. Operands to which the row gives no bits are zeros. Rows of fewer than 8 bits share the width 8 with
the mode bytes when they are counted in whole bytes: such a word below 8 is read as an operation select, any other as a mode
byte (notes/assumptions 13). -/
def tableRequest (nbits w : Nat) : Request :=
  match nbits with
  | 1 => .ports { rst := BitVec.ofNat 1 w }
  | 2 => .errCode (BitVec.ofNat 2 w) .ch1 .i 0
  | 3 => .ports { op := BitVec.ofNat 3 w }
  | 8 =>
    if w < 8 then .ports { op := BitVec.ofNat 3 w }
    else .modeByte (BitVec.ofNat 8 w) .ch1 ⟨0, 0, 0⟩ 0
  | 16 => .wire (bytesOfNat 2 w) 0
  | 80 => .wire (bytesOfNat 10 w) 0
  | 104 => .wire (bytesOfNat 13 w) 0
  | 184 => .wire (bytesOfNat 23 w) 0
  | 264 => .wire (bytesOfNat 33 w) 0
  | _ => .noFormat nbits w

/-- The instruction the decoder reads from a table row's word. -/
def decodeTableWord (nbits w : Nat) : Option Instr := (decode (tableRequest nbits w)).toOption

end Sys2Proof
end

