-- ==== Sys2Proof/Machine/State.lean ====
section
/-!
DEFINITION. The state of the machine: the block with the two state variables of 10_state.md (`buf` R20, `ovf_count` R21), the
caller beside it (the queue it issues and the result it was handed: no state of the block, R24), and the constants of the
instance (R9); the result types R30 to R33; the reset state R35.
-/

namespace Sys2Proof.Machine

/-- RawBuffer: bytes, index 0 the oldest (R20). A sequence, not an address map: the block has no address space (R40). -/
abbrev Memory := List Byte

/-- A frame: a byte sequence (R29). -/
abbrev Frame := List Byte

/-- Four numbers of one channel (R30). -/
structure ChannelReading where
  voltage : U16
  current : U16
  resistance : Rat
  power : Nat
  deriving DecidableEq, Repr

/-- A timestamp and exactly three channel readings (R31). -/
structure Reading where
  ts : Nat
  ch1 : ChannelReading
  ch2 : ChannelReading
  ch3 : ChannelReading
  deriving DecidableEq, Repr

/-- The three error values of ENCODE (R33, R151). -/
inductive EncError where
  | invalidChannel
  | invalidMethod
  | invalidValue
  deriving DecidableEq, Repr

/-- A packet: exactly 10 bytes (R33, R70). -/
abbrev Packet := Vector Byte 10

/-- `Ok(packet)` or an error value (R33). -/
inductive EncodeResult where
  | ok (pkt : Packet)
  | error (e : EncError)
  deriving DecidableEq, Repr

/-- What the output ports of R76 carry as the result of an operation. -/
inductive Output where
  /-- The operation has no result (NOP, APPEND, RESET: R75, R90, R170). -/
  | none
  /-- `frames_out` (R92). -/
  | frames (fs : List Frame)
  /-- `st_len` and `st_ovf` (R100). -/
  | status (len ovf : Nat)
  /-- `rd_ts`, `rd_voltage`, `rd_current`, `rd_resistance`, `rd_power` (R110). -/
  | reading (r : Reading)
  /-- `enc_err` and `enc_pkt` (R130). -/
  | encoded (r : EncodeResult)
  deriving DecidableEq, Repr

/-- The block: all the state the spec gives the machine, and all that the block itself keeps between operations (R19, R24,
R34). -/
structure Block where
  /-- RawBuffer (R20). -/
  buf : Memory
  /-- The diagnostic overflow counter `ovf_count` (R21), at most `cfg.ovfMax`. -/
  ovfCount : Nat
  deriving DecidableEq, Repr

/-- The caller's side of the ports, not the block's: what the caller will issue and the result it was handed. The caller is
the environment (R19); frames, Readings, commands and packets are its, "never retained" by the block (R24). No operation reads
this record (Obligations.ResultAndQueueAreNeverRead, Obligations.BlockKeepsNoHistory). -/
structure Caller where
  /-- The operations the caller has issued and that have not run yet, oldest first (R22; notes/assumptions 1). -/
  pending : List Request
  /-- The result handed over by the operation the last step ran; the next step drops it (notes/assumptions 2). -/
  out : Output
  deriving DecidableEq, Repr

/-- The machine the step runs: the block, the caller beside it, and the constants of the instance. -/
structure State extends Block, Caller where
  /-- The constants of the instance (R9, R10): configuration, never written (notes/assumptions 3). -/
  cfg : Config
  deriving DecidableEq, Repr

/-- No operation of this block faults: R19 "Faults: none", R156. -/
inductive Fault where
  deriving DecidableEq, Repr

/-- Why the model gives a request no step. -/
inductive Refusal where
  /-- Raised by exec's arm of an instruction that has no meaning yet. Safe: nothing can be proved of its run. -/
  | notModelled (mnemonic : String)
  /-- Raised by RESERVED.OP6 and RESERVED.OP7: "refused: the spec gives them no meaning" (R75, U8). Safe. -/
  | reservedOp (op : BitVec 3)
  /-- Raised by APPEND beyond a finite BUF_PHYS_CAP: "the model refuses the operation (no next state)" (R91, U9). Safe. -/
  | capacityExceeded
  /-- Raised by step for a request that is no encoding of the table (R81). Safe. -/
  | undecodable (e : DecodeError)
  /-- Raised by step for an operand its port cannot carry, a timestamp of more than TS_W bits (R76). Safe. -/
  | illFormed
  deriving DecidableEq, Repr

/-- The machine right after reset (R35): an empty buffer and a zero counter; the parameters at their defaults (R9); nothing
issued and no result presented (notes/assumptions 1, 2). -/
def State.reset : State where
  buf := []
  ovfCount := 0
  cfg := Config.defaults
  pending := []
  out := .none

end Sys2Proof.Machine
end

