-- ==== Sys2Proof/Machine/Ops.lean ====
section
/-!
DEFINITION. The named operations over the state: the field updates; the three writes and the one read of RawBuffer (R13),
`find` (R15), the frame-cutting pass and loop of EXTRACT (R92) and its overflow policy (R95); delivering a result, and
`raise` (R16), the one way an operation ends in an error. There is no trap entry and no trap return (R156, R159).
-/

namespace Sys2Proof.Machine

/-! ### Field updates -/

namespace State

def setBuf (s : State) (b : Memory) : State := { s with buf := b }
def setOvf (s : State) (n : Nat) : State := { s with ovfCount := n }
def setPending (s : State) (p : List Request) : State := { s with pending := p }
def setOut (s : State) (o : Output) : State := { s with out := o }

/-- The caller has taken the last result: nothing keeps it (R24). -/
def dropResult (s : State) : State := s.setOut .none

end State

/-! ### RawBuffer -/

namespace Memory

/-- RawBuffer lies within its physical capacity (R20: its length is "any natural number up to BUF_PHYS_CAP"). -/
def wf (cap : Option Nat) (m : Memory) : Bool :=
  match cap with
  | none => true
  | some n => decide (m.length ≤ n)

/-- `buf <- buf ++ bs` (R13, R90). -/
def append (m : Memory) (bs : List Byte) : Memory := m ++ bs

/-- `buf <- buf[n : len(buf))` (R13). -/
def dropPrefix (m : Memory) (n : Nat) : Memory := m.drop n

/-- `last(buf, n)`, defined for `n <= len(buf)` (R12). -/
def last (m : Memory) (n : Nat) : Memory := m.drop (m.length - n)

/-- `MemRead(addr, n)`, `buf[addr : addr+n)`, defined when `addr + n <= len(buf)` (R13). -/
def read? (m : Memory) (addr n : Nat) : Option (List Byte) :=
  if addr + n ≤ m.length then some (slice m addr (addr + n)) else none

/-- One byte of RawBuffer; `none` at an index it does not have. -/
def byte? (m : Memory) (addr : Nat) : Option Byte := m[addr]?

end Memory

/-- `s[i] = p0` and `s[i+1] = p1`, with `i + 1 < len(s)` (R15). -/
def pairAt (s : List Byte) (p : Byte × Byte) (i : Nat) : Bool := Memory.read? s i 2 == some [p.1, p.2]

/-- The least index of the pair in the whole sequence. -/
def findFirst (p : Byte × Byte) : List Byte → Option Nat
  | [] => none
  | a :: rest => if pairAt (a :: rest) p 0 then some 0 else (findFirst p rest).map (· + 1)

/-- `find(s, p, k)`: the least index `i >= k` of the pair, or NONE (R15). -/
def find (s : List Byte) (p : Byte × Byte) (k : Nat) : Option Nat := (findFirst p (s.drop k)).map (· + k)

/-- One pass of EXTRACT's loop (R92): the frame and what is left of the buffer; `none` in case A (no start marker) and in
case B (no end marker at or after `s + END_SCAN_SKIP`). -/
def nextFrame (skip : Nat) (b : Memory) : Option (Frame × Memory) :=
  match find b startMarker 0 with
  | none => none
  | some s =>
    match find b endMarker (s + skip) with
    | none => none
    | some e => some (slice b s (e + 2), Memory.dropPrefix b (e + 2))

/-- EXTRACT's loop (R92), at most `fuel` passes. -/
def extractLoop (skip : Nat) : Nat → Memory → List Frame × Memory
  | 0, b => ([], b)
  | fuel + 1, b =>
    match nextFrame skip b with
    | none => ([], b)
    | some (f, rest) => (f :: (extractLoop skip fuel rest).1, (extractLoop skip fuel rest).2)

/-- EXTRACT's loop run to its end: every pass drops at least one byte, so `len(buf)` passes are enough (R97). -/
def extractFrames (skip : Nat) (b : Memory) : List Frame × Memory := extractLoop skip b.length b

/-- `ovf_count <- min(ovf_count + 1, 2^OVF_W - 1)` (R95). -/
def bumpOvf (c : Config) (n : Nat) : Nat := min (n + 1) c.ovfMax

/-- The overflow policy (R95): a buffer of more than MAX_BUF bytes is cut to its last TAIL_KEEP bytes and counted. -/
def overflowPolicy (s : State) : State :=
  if s.cfg.maxBuf < s.buf.length then
    (s.setBuf (Memory.last s.buf s.cfg.tailKeep)).setOvf (bumpOvf s.cfg s.ovfCount)
  else s

/-! ### Ends of an operation -/

/-- The operation ends and presents its result. -/
def finish (o : Output) (s : State) : Host.Outcome State Fault Refusal := .next (s.setOut o)

/-- `raise E` (R16, R156): the operation ends, no state variable is changed, and its result is the error value `E`. -/
def raise (e : EncError) (s : State) : Host.Outcome State Fault Refusal := finish (.encoded (.error e)) s

/-- `return Ok(packet)` (R130). -/
def returnOk (pkt : Packet) (s : State) : Host.Outcome State Fault Refusal := finish (.encoded (.ok pkt)) s

/-- Append to RawBuffer, refused when a finite capacity would be exceeded (R90, R91). -/
def appendBytes (bs : List Byte) (s : State) : Host.Outcome State Fault Refusal :=
  if Memory.wf s.cfg.bufPhysCap (Memory.append s.buf bs) then finish .none (s.setBuf (Memory.append s.buf bs))
  else .refused .capacityExceeded

end Sys2Proof.Machine
end

