-- ==== Sys2Proof/Machine/Operands.lean ====
section
/-!
DEFINITION. The operand forms: `FrameRead` and the field positions of a telemetry frame (R14, R62), the derivation and
override of a channel (R114 to R119), the validation, clamping and assembly of a command (R130 to R135), and the output ports
as views of a result (R76).
-/

namespace Sys2Proof.Machine

/-! ### Frame fields -/

/-- `FrameRead(F, a, 1)` (R14). -/
def frameRead8 (f : Frame) (a : Nat) : Byte := if a + 1 ≤ f.length then f.getD a 0 else 0

/-- `FrameRead(F, a, 2)` (R14): the whole field or 0. -/
def frameRead16 (f : Frame) (a : Nat) : U16 :=
  if a + 2 ≤ f.length then u16 (f.getD a 0) (f.getD (a + 1) 0) else 0

/-- `b = 10 * (k - 1)` (R62). -/
def chanBase : Channel → Nat
  | .ch1 => chStride * 0
  | .ch2 => chStride * 1
  | .ch3 => chStride * 2

/-- The raw registers of channel `k` in frame `f` (R62, R112). -/
def rawRegs (f : Frame) (k : Channel) : RawRegs where
  v := frameRead16 f (chanBase k + 2)
  i := frameRead16 f (chanBase k + 5)
  g := frameRead16 f (chanBase k + 9)

/-- The mode byte of channel `k` in frame `f` (R62, R112). -/
def modeByte (f : Frame) (k : Channel) : Byte := frameRead8 f (chanBase k + 8)

/-! ### Channel readings -/

/-- Derived resistance: the exact quotient, 0 for a zero current (R116). -/
def derivedResistance (v i : U16) : Rat := if i = 0 then 0 else mkRat v.toNat i.toNat

/-- Derived power: the exact product (R117). -/
def derivedPower (scale : Nat) (v i : U16) : Nat := v.toNat * i.toNat * scale

/-- The four values before override, all from the raw registers (R119). -/
def derive (scale : Nat) (r : RawRegs) : ChannelReading where
  voltage := r.v
  current := r.i
  resistance := derivedResistance r.v r.i
  power := derivedPower scale r.v r.i

/-- Mode override: at most one value is replaced by G, unscaled (R66, R118). -/
def override (mode : Byte) (g : U16) (c : ChannelReading) : ChannelReading :=
  if mode = 1 then { c with current := g }
  else if mode = 2 then { c with resistance := (g.toNat : Rat) }
  else if mode = 3 then { c with power := g.toNat }
  else c

/-- One channel of DECODE: derive first, then override (R119). -/
def channelReading (scale : Nat) (mode : Byte) (r : RawRegs) : ChannelReading := override mode r.g (derive scale r)

/-- DECODE's result (R110). -/
def readingOf (scale : Nat) (f : Frame) (ts : Nat) : Reading where
  ts := ts
  ch1 := channelReading scale (modeByte f .ch1) (rawRegs f .ch1)
  ch2 := channelReading scale (modeByte f .ch2) (rawRegs f .ch2)
  ch3 := channelReading scale (modeByte f .ch3) (rawRegs f .ch3)

/-- `ch[k]` of a Reading (R31). -/
def Reading.ch (r : Reading) : Channel → ChannelReading
  | .ch1 => r.ch1
  | .ch2 => r.ch2
  | .ch3 => r.ch3

/-- A channel group that carries these registers and mode byte; its unread bytes are 0x3A, the convention of
95_test_vectors.md (R63: their value cannot change a Reading). -/
def groupOf (mode : Byte) (r : RawRegs) : ChanGroup where
  voltage := r.v
  unread1 := 0x3A
  current := r.i
  unread2 := 0x3A
  mode := mode
  ancillary := r.g

/-- A channel group of zero registers. -/
def zeroGroup : ChanGroup := groupOf 0 ⟨0, 0, 0⟩

/-- The clean frame that carries one channel's registers and mode byte, earlier channels zero (R62, R65). -/
def frameOfChannel (mode : Byte) (r : RawRegs) : Channel → Frame
  | .ch1 => frame13Bytes (groupOf mode r)
  | .ch2 => frame23Bytes zeroGroup 0x3A (groupOf mode r)
  | .ch3 => frame33Bytes zeroGroup 0x3A zeroGroup 0x3A (groupOf mode r)

/-! ### Commands -/

/-- VAL_REPR of an instance: the rational a word of `cmd_value` denotes, `none` for the not-a-number token (R9, R134). -/
def valWord (c : Config) (w : Nat) : Option Rat := (c.valRepr.lookup w).getD (Config.openValRepr w)

/-- The rational an operand denotes; `none` is `NaN_TOKEN` (R134: every encoding that is no rational is `NaN_TOKEN`). -/
def numberOf (c : Config) : CmdValue → Option Rat
  | .number q => some q
  | .portWord w => valWord c w
  | .nan => none

/-- `clamp(v, lo, hi)` (R17). -/
def clamp (v lo hi : Rat) : Rat := if v < lo then lo else if hi < v then hi else v

/-- `trunc(v)`: the fractional part discarded, toward zero (R17). -/
def trunc (v : Rat) : Int := v.num.tdiv v.den

/-- The value field: clamp to 0..65535, then truncate (R73, R133). -/
def valueField (q : Rat) : U16 := BitVec.ofInt 16 (trunc (clamp q 0 (u16Max : Rat)))

/-- The packet of a channel, a method and a value field (R70, R135). -/
def packetOf (c : Channel) (m : Method) (n : U16) : Packet :=
  #v[0x3C, 0x3A, c.code, 0x3A, m.code, 0x3A, hiByte n, loByte n, 0x3A, 0x3E]

/-- ENCODE's result (R130): the checks in the order channel, method, value (R132), then the packet. Of the instance it uses the
format of the value port alone. -/
def encodeCommand (cfg : Config) (ch : ChannelId) (m : MethodId) (v : CmdValue) : EncodeResult :=
  match ch with
  | .unrecognised _ => .error .invalidChannel
  | .known c =>
    match m with
    | .unrecognised _ => .error .invalidMethod
    | .known mm =>
      match numberOf cfg v with
      | none => .error .invalidValue
      | some q => .ok (packetOf c mm (valueField q))

/-- The identifier whose code on the wire is `cc`, if any (R71). -/
def channelOfCode (cc : Byte) : ChannelId :=
  if cc = 1 then .known .ch1
  else if cc = 2 then .known .ch2
  else if cc = 3 then .known .ch3
  else .unrecognised cc

/-- The identifier whose code on the wire is `mc`, if any (R72). A code outside 1..3 stands for no method, so it is an
unrecognised one, under the port value 0, which R77 does not recognise. -/
def methodOfCode (mc : Byte) : MethodId :=
  if mc = 1 then .known .i
  else if mc = 2 then .known .r
  else if mc = 3 then .known .p
  else .unrecognised 0

/-- A value field as an operand: the number it is (R73). -/
def valueOfField (n : U16) : CmdValue := .number (n.toNat : Rat)

/-! ### Output ports -/

/-- `enc_pkt`: byte 0 in bits 79:72 (R76). -/
def packetWord (p : Packet) : BitVec 80 := BitVec.ofNat 80 (beNat p.toList)

/-- `enc_pkt` of a result: all zero when `enc_err` is not 0 (R76, R151). -/
def encPkt : EncodeResult → BitVec 80
  | .ok p => packetWord p
  | .error _ => 0

/-- RES_REPR of an instance: the port word of a rational (R9, R116). -/
def resWord (c : Config) (q : Rat) : Nat := (c.resRepr.lookup q).getD (Config.openResRepr q)

/-- `rd_resistance[k]`: the exact rational in the instance's representation RES_REPR (R76, R116). -/
def rdResistance (c : Config) (r : Reading) (k : Channel) : Nat := resWord c (Reading.ch r k).resistance

/-- `rd_voltage[k]` (R76). -/
def rdVoltage (r : Reading) (k : Channel) : U16 := (Reading.ch r k).voltage

/-- `rd_current[k]` (R76). -/
def rdCurrent (r : Reading) (k : Channel) : U16 := (Reading.ch r k).current

/-- The width of `rd_power[k]`: "the bits needed for `65535 * 65535 * POWER_SCALE`" (R76); 42 at the default scale. -/
def powerBits (scale : Nat) : Nat := Nat.log2 (u16Max * u16Max * scale) + 1

/-- `rd_power[k]` of an instance with this POWER_SCALE (R76). -/
def rdPower (scale : Nat) (r : Reading) (k : Channel) : BitVec (powerBits scale) :=
  BitVec.ofNat (powerBits scale) (Reading.ch r k).power

end Sys2Proof.Machine
end

