-- ==== Sys2Proof/Machine/Flags.lean ====
section
/-!
DEFINITION. The block has no flags and no condition codes (R23). What stands in their place is computed here: the six named
conditions of the taxonomy R150, as predicates on the operands of the operation that has them, and the error code R151.
-/

namespace Sys2Proof.Machine

/-- `FramingIncomplete`: EXTRACT finds no complete frame (R150, R152). -/
def framingIncomplete (s : State) : Bool := (nextFrame s.cfg.endScanSkip s.buf).isNone

/-- `BufferOverflow`: what is left after the scan is longer than MAX_BUF (R150, R153). -/
def bufferOverflow (s : State) : Bool :=
  decide (s.cfg.maxBuf < (extractFrames s.cfg.endScanSkip s.buf).2.length)

/-- A field of `n` bytes at `a` reaches beyond the frame, so it reads as 0 (R14, R113). -/
def fieldDefaulted (f : Frame) (a n : Nat) : Bool := decide (f.length < a + n)

/-- The four fields of channel `k`: index and width (R62). -/
def channelFields (k : Channel) : List (Nat × Nat) :=
  [(chanBase k + 2, 2), (chanBase k + 5, 2), (chanBase k + 8, 1), (chanBase k + 9, 2)]

/-- The twelve fields of a frame (R62). -/
def frameFields : List (Nat × Nat) := channelFields .ch1 ++ channelFields .ch2 ++ channelFields .ch3

/-- `DecodeLenient`: some field's byte range exceeds the frame (R150, R154). -/
def decodeLenient (f : Frame) : Bool := frameFields.any fun (a, n) => fieldDefaulted f a n

/-- The code of an error value (R151). -/
def EncError.code : EncError → BitVec 2
  | .invalidChannel => 1
  | .invalidMethod => 2
  | .invalidValue => 3

/-- `enc_err`: 0 for a packet, else the error's code (R151). -/
def encErr : EncodeResult → BitVec 2
  | .ok _ => 0
  | .error e => EncError.code e

end Sys2Proof.Machine
end

