-- ==== Sys2Proof/Machine/CommandEncoder.lean ====
section
/-!
DEFINITION. The Command Encoder family (42_command_encoder.md): ENCODE, the command packets it produces, and its error codes.
-/

namespace Sys2Proof.Machine

/-- Present ENCODE's result: a packet, or an error raised (R16, R130). -/
def encodeOperands (ch : ChannelId) (m : MethodId) (v : CmdValue) (s : State) : Host.Outcome State Fault Refusal :=
  match encodeCommand s.cfg ch m v with
  | .ok pkt => returnOk pkt s
  | .error e => raise e s

/-- ENCODE `channel`, `method`, `value` (R130): pure, no I/O (R136). -/
def execEncode (ch : ChannelId) (m : MethodId) (v : CmdValue) (s : State) : Host.Outcome State Fault Refusal :=
  encodeOperands ch m v s

/-- CMD: the ENCODE with these codes and this value (R70, R130); codes outside 1..3 are no identifier, so they are its
error values (R74, R131; notes/assumptions 7). -/
def execCmd (cc mc : Byte) (value : U16) (s : State) : Host.Outcome State Fault Refusal :=
  encodeOperands (channelOfCode cc) (methodOfCode mc) (valueOfField value) s

/-- CMD.I: the packet of method I (R72; notes/assumptions 7). -/
def execCmdI (cc : Byte) (value : U16) (s : State) : Host.Outcome State Fault Refusal :=
  encodeOperands (channelOfCode cc) (methodOfCode 1) (valueOfField value) s

/-- CMD.R: the packet of method R (R72; notes/assumptions 7). -/
def execCmdR (cc : Byte) (value : U16) (s : State) : Host.Outcome State Fault Refusal :=
  encodeOperands (channelOfCode cc) (methodOfCode 2) (valueOfField value) s

/-- CMD.P: the packet of method P (R72; notes/assumptions 7). -/
def execCmdP (cc : Byte) (value : U16) (s : State) : Host.Outcome State Fault Refusal :=
  encodeOperands (channelOfCode cc) (methodOfCode 3) (valueOfField value) s

/-- ERR.OK: the result `Ok` with the packet of these fields (R151; notes/assumptions 10). -/
def execErrOk (c : Channel) (m : Method) (n : U16) (s : State) : Host.Outcome State Fault Refusal :=
  returnOk (packetOf c m n) s

/-- ERR.INVALID_CHANNEL: `raise InvalidChannel` (R16, R151; notes/assumptions 10). -/
def execErrInvalidChannel (s : State) : Host.Outcome State Fault Refusal := raise .invalidChannel s

/-- ERR.INVALID_METHOD: `raise InvalidMethod` (R16, R151; notes/assumptions 10). -/
def execErrInvalidMethod (s : State) : Host.Outcome State Fault Refusal := raise .invalidMethod s

/-- ERR.INVALID_VALUE: `raise InvalidValue` (R16, R151; notes/assumptions 10). -/
def execErrInvalidValue (s : State) : Host.Outcome State Fault Refusal := raise .invalidValue s

end Sys2Proof.Machine
end

