-- ==== Sys2Proof/Machine/Control.lean ====
section
/-!
DEFINITION. The operations of no component: NOP (R75), the reserved op codes (R75), and RESET (R170).
-/

namespace Sys2Proof.Machine

/-- NOP (R75): no state is read or written; no result. -/
def execNop (s : State) : Host.Outcome State Fault Refusal := finish .none s

/-- RESERVED.OP6 (R75, U8): "refused: the spec gives them no meaning". -/
def execReservedOp6 (_ : State) : Host.Outcome State Fault Refusal := .refused (.reservedOp 6)

/-- RESERVED.OP7 (R75, U8): "refused: the spec gives them no meaning". -/
def execReservedOp7 (_ : State) : Host.Outcome State Fault Refusal := .refused (.reservedOp 7)

/-- RESET (R170): the buffer is emptied and the counter cleared; the parameters are constants (R35). -/
def execReset (s : State) : Host.Outcome State Fault Refusal := finish .none ((s.setBuf []).setOvf 0)

end Sys2Proof.Machine
end

