-- ==== Sys2Proof/Machine/FrameExtractor.lean ====
section
/-!
DEFINITION. The Frame Extractor family (40_frame_extractor.md): APPEND, EXTRACT, STATUS, and the two markers as bytes that
arrive in the stream.
-/

namespace Sys2Proof.Machine

/-- APPEND `bs` (R90, R91): no look at the bytes, no search, no truncation. -/
def execAppend (bs : List Byte) (s : State) : Host.Outcome State Fault Refusal := appendBytes bs s

/-- EXTRACT (R92, R95): every complete frame is cut out, then the overflow policy is applied to what is left. -/
def execExtract (s : State) : Host.Outcome State Fault Refusal :=
  finish (.frames (extractFrames s.cfg.endScanSkip s.buf).1)
    (overflowPolicy (s.setBuf (extractFrames s.cfg.endScanSkip s.buf).2))

/-- STATUS (R100). -/
def execStatus (s : State) : Host.Outcome State Fault Refusal := finish (.status s.buf.length s.ovfCount) s

/-- MARKER.START: a marker reaches the block as two bytes of the stream (R40, R60), so it is appended
(notes/assumptions 6). -/
def execMarkerStart (s : State) : Host.Outcome State Fault Refusal :=
  appendBytes [startMarker.1, startMarker.2] s

/-- MARKER.END, the same (R60; notes/assumptions 6). -/
def execMarkerEnd (s : State) : Host.Outcome State Fault Refusal :=
  appendBytes [endMarker.1, endMarker.2] s

end Sys2Proof.Machine
end

