-- ==== Sys2Proof/Machine/ReadingDecoder.lean ====
section
/-!
DEFINITION. The Reading Decoder family (41_reading_decoder.md): DECODE, the three clean telemetry frames, and the mode bytes.
-/

namespace Sys2Proof.Machine

/-- Present the Reading of a frame (R110): pure, never fails (R123). -/
def decodeFrame (f : Frame) (ts : Nat) (s : State) : Host.Outcome State Fault Refusal :=
  finish (.reading (readingOf s.cfg.powerScale f ts)) s

/-- DECODE `F`, `ts` (R110). -/
def execDecode (f : Frame) (ts : Nat) (s : State) : Host.Outcome State Fault Refusal := decodeFrame f ts s

/-- TLM.FRAME33: DECODE of the 33-byte frame (R62, R110; notes/assumptions 8). -/
def execTlmFrame33 (g1 : ChanGroup) (x11 : Byte) (g2 : ChanGroup) (x21 : Byte) (g3 : ChanGroup) (ts : Nat) (s : State) :
    Host.Outcome State Fault Refusal :=
  decodeFrame (frame33Bytes g1 x11 g2 x21 g3) ts s

/-- TLM.FRAME13: DECODE of the 13-byte frame (R65, R110; notes/assumptions 8). -/
def execTlmFrame13 (g1 : ChanGroup) (ts : Nat) (s : State) : Host.Outcome State Fault Refusal :=
  decodeFrame (frame13Bytes g1) ts s

/-- TLM.FRAME23: DECODE of the 23-byte frame (R65, R110; notes/assumptions 8). -/
def execTlmFrame23 (g1 : ChanGroup) (x11 : Byte) (g2 : ChanGroup) (ts : Nat) (s : State) :
    Host.Outcome State Fault Refusal :=
  decodeFrame (frame23Bytes g1 x11 g2) ts s

/-- A mode byte acts as that of channel `k` in a clean frame with the registers `regs` (R66, R118; notes/assumptions 9). -/
def decodeChannelMode (mode : Byte) (k : Channel) (regs : RawRegs) (ts : Nat) (s : State) :
    Host.Outcome State Fault Refusal :=
  decodeFrame (frameOfChannel mode regs k) ts s

/-- MODE.CURRENT: current is replaced by G (R118). -/
def execModeCurrent (k : Channel) (regs : RawRegs) (ts : Nat) (s : State) : Host.Outcome State Fault Refusal :=
  decodeChannelMode 1 k regs ts s

/-- MODE.RESISTANCE: resistance is replaced by G (R118). -/
def execModeResistance (k : Channel) (regs : RawRegs) (ts : Nat) (s : State) : Host.Outcome State Fault Refusal :=
  decodeChannelMode 2 k regs ts s

/-- MODE.POWER: power is replaced by G (R118). -/
def execModePower (k : Channel) (regs : RawRegs) (ts : Nat) (s : State) : Host.Outcome State Fault Refusal :=
  decodeChannelMode 3 k regs ts s

/-- MODE.NONE: nothing is replaced (R118). -/
def execModeNone (mode : Byte) (k : Channel) (regs : RawRegs) (ts : Nat) (s : State) :
    Host.Outcome State Fault Refusal :=
  decodeChannelMode mode k regs ts s

end Sys2Proof.Machine
end

