-- ==== Sys2Proof/Machine/Dispatch.lean ====
section
/-!
DEFINITION. One arm per constructor of Instr.
-/

namespace Sys2Proof.Machine

def exec (i : Instr) (s : State) : Host.Outcome State Fault Refusal :=
  match i with
  | .nop => Sys2Proof.Machine.execNop s
  | .append bs => Sys2Proof.Machine.execAppend bs s
  | .extract => Sys2Proof.Machine.execExtract s
  | .status => Sys2Proof.Machine.execStatus s
  | .decode frame ts => Sys2Proof.Machine.execDecode frame ts s
  | .encode channel method value => Sys2Proof.Machine.execEncode channel method value s
  | .reservedOp6 => Sys2Proof.Machine.execReservedOp6 s
  | .reservedOp7 => Sys2Proof.Machine.execReservedOp7 s
  | .reset => Sys2Proof.Machine.execReset s
  | .markerStart => Sys2Proof.Machine.execMarkerStart s
  | .markerEnd => Sys2Proof.Machine.execMarkerEnd s
  | .cmd cc mc value => Sys2Proof.Machine.execCmd cc mc value s
  | .cmdI cc value => Sys2Proof.Machine.execCmdI cc value s
  | .cmdR cc value => Sys2Proof.Machine.execCmdR cc value s
  | .cmdP cc value => Sys2Proof.Machine.execCmdP cc value s
  | .tlmFrame33 g1 x11 g2 x21 g3 ts => Sys2Proof.Machine.execTlmFrame33 g1 x11 g2 x21 g3 ts s
  | .tlmFrame13 g1 ts => Sys2Proof.Machine.execTlmFrame13 g1 ts s
  | .tlmFrame23 g1 x11 g2 ts => Sys2Proof.Machine.execTlmFrame23 g1 x11 g2 ts s
  | .modeCurrent k regs ts => Sys2Proof.Machine.execModeCurrent k regs ts s
  | .modeResistance k regs ts => Sys2Proof.Machine.execModeResistance k regs ts s
  | .modePower k regs ts => Sys2Proof.Machine.execModePower k regs ts s
  | .modeNone mode k regs ts => Sys2Proof.Machine.execModeNone mode k regs ts s
  | .errOk c m n => Sys2Proof.Machine.execErrOk c m n s
  | .errInvalidChannel => Sys2Proof.Machine.execErrInvalidChannel s
  | .errInvalidMethod => Sys2Proof.Machine.execErrInvalidMethod s
  | .errInvalidValue => Sys2Proof.Machine.execErrInvalidValue s

end Sys2Proof.Machine
end

