-- ==== Sys2Proof/Machine/Step.lean ====
section
/-!
DEFINITION. One step of the machine: the last result is dropped, which nothing stores between operations (R24); the oldest issued
request is taken off the queue, decoded, checked and executed; with nothing issued the block stays as it is (R167).
-/

namespace Sys2Proof.Machine

/-- One step. The block has no program counter (R22): what it runs next is what the caller issued next. -/
def step (s : State) : Host.Outcome State Fault Refusal :=
  match s.pending with
  | [] => .next s.dropResult
  | r :: rest =>
    match decode r with
    | .error e => .refused (.undecodable e)
    | .ok i => if i.wf s.cfg then exec i (s.dropResult.setPending rest) else .refused .illFormed

/-- `s` with a table row's word issued as the next request (notes/assumptions 1). -/
def State.withFetchWord (s : State) (nbits w : Nat) : State := s.setPending (tableRequest nbits w :: s.pending)

end Sys2Proof.Machine
end

