-- ==== Sys2Proof/Safety.lean ====
section
/-!
DEFINITION. The terms claims are stated in: the invariant of the machine, what a complete frame is, EXTRACT's loop as a
relation, runs of a caller's program with its results, the stream of appended bytes, and the caller's abbreviations FEED and
POLL.
-/

namespace Sys2Proof.Machine

/-! ### Invariant -/

/-- The invariant of the machine: an admissible instance (R9), a buffer within its capacity (R20), a counter within its
width (R21). -/
structure State.Inv (s : State) : Prop where
  cfg : s.cfg.admissible = true
  buf : Memory.wf s.cfg.bufPhysCap s.buf = true
  ovf : s.ovfCount ≤ s.cfg.ovfMax

/-! ### Frames in a byte sequence -/

/-- `i` is the least index of the pair at or after `k`, said without `find` (R15). -/
def IsLeastPair (b : List Byte) (p : Byte × Byte) (k i : Nat) : Prop :=
  k ≤ i ∧ b[i]? = some p.1 ∧ b[i + 1]? = some p.2
    ∧ ∀ j, k ≤ j → j < i → ¬ (b[j]? = some p.1 ∧ b[j + 1]? = some p.2)

/-- The pair stands nowhere at or after `k`. -/
def NoPair (b : List Byte) (p : Byte × Byte) (k : Nat) : Prop :=
  ∀ j, k ≤ j → ¬ (b[j]? = some p.1 ∧ b[j + 1]? = some p.2)

/-- `b` holds no complete frame (R28(b)): no start marker, or none of its end markers at or after the first start marker
plus END_SCAN_SKIP. -/
def NoCompleteFrame (skip : Nat) (b : List Byte) : Prop :=
  NoPair b startMarker 0 ∨ ∃ s, IsLeastPair b startMarker 0 s ∧ NoPair b endMarker (s + skip)

/-- The loop of EXTRACT as the spec words it (R92): the frames cut out of a buffer, earliest first, and what is left. -/
inductive Extracts (skip : Nat) : List Byte → List Frame → List Byte → Prop where
  | stop (b : List Byte) (h : NoCompleteFrame skip b) : Extracts skip b [] b
  | cut (b : List Byte) (s e : Nat) (fs : List Frame) (rem : List Byte)
      (hs : IsLeastPair b startMarker 0 s) (he : IsLeastPair b endMarker (s + skip) e)
      (hr : Extracts skip (b.drop (e + 2)) fs rem) : Extracts skip b (slice b s (e + 2) :: fs) rem

/-! ### Runs -/

/-- Go on with what an outcome gives; a fault or a refusal ends the run. -/
def andThen {σ τ : Type} (o : Host.Outcome σ Fault Refusal) (k : σ → Host.Outcome τ Fault Refusal) :
    Host.Outcome τ Fault Refusal :=
  match o with
  | .next s => k s
  | .fault r => .fault r
  | .refused r => .refused r

/-- A caller's program (R22: "a finite list of operations with their operands"), run to its end: the results in order, and
the state left. -/
def runProgram : List Instr → State → Host.Outcome (List Output × State) Fault Refusal
  | [], s => .next ([], s)
  | i :: rest, s => andThen (exec i s) fun t => andThen (runProgram rest t) fun r => .next (t.out :: r.1, r.2)

/-- The frames among a program's results, in order. -/
def framesOf : List Output → List Frame
  | [] => []
  | .frames fs :: rest => fs ++ framesOf rest
  | .none :: rest => framesOf rest
  | .status _ _ :: rest => framesOf rest
  | .reading _ :: rest => framesOf rest
  | .encoded _ :: rest => framesOf rest

/-- The stream `S` of R27: what was appended since the last RESET, continued from `acc`. A marker row appends its two
bytes (notes/assumptions 6). -/
def streamOf : List Instr → List Byte → List Byte
  | [], acc => acc
  | .append bs :: rest, acc => streamOf rest (acc ++ bs)
  | .markerStart :: rest, acc => streamOf rest (acc ++ [0x3C, 0x3A])
  | .markerEnd :: rest, acc => streamOf rest (acc ++ [0x3A, 0x3E])
  | .reset :: rest, _ => streamOf rest []
  | _ :: rest, acc => streamOf rest acc

/-- FEED (R80): APPEND, then EXTRACT. -/
def feed (bs : List Byte) : List Instr := [.append bs, .extract]

/-- FEED of every chunk in turn: an EXTRACT after each APPEND (R101). -/
def feedAll (chunks : List (List Byte)) : List Instr := (chunks.map feed).flatten

/-- No EXTRACT of a run of FEEDs truncates (R101: "the remainder never exceeds `MAX_BUF`"): BufferOverflow (R150) holds at
none of them. -/
def NoFeedTruncates : List (List Byte) → State → Prop
  | [], _ => True
  | c :: rest, s =>
    bufferOverflow (s.setBuf (Memory.append s.buf c)) = false
      ∧ ∀ os t, runProgram (feed c) s = .next (os, t) → NoFeedTruncates rest t

/-- What the end of EXTRACT makes of the frames `fs` and the remainder `rem` its loop gave (R95), in the words of R92. -/
def afterExtract (fs : List Frame) (rem : List Byte) (s : State) : State :=
  if s.cfg.maxBuf < rem.length then
    { s with
      buf := rem.drop (rem.length - s.cfg.tailKeep)
      ovfCount := min (s.ovfCount + 1) (2 ^ s.cfg.ovfW - 1)
      out := .frames fs }
  else { s with buf := rem, out := .frames fs }

/-- The DECODEs of a POLL: one for each frame, with one timestamp (R80). -/
def decodeAll (fs : List Frame) (ts : Nat) : List Instr := fs.map fun f => .decode f ts

/-- The Readings among a program's results, in order. -/
def readingsOf : List Output → List Reading
  | [] => []
  | .reading r :: rest => r :: readingsOf rest
  | .none :: rest => readingsOf rest
  | .frames _ :: rest => readingsOf rest
  | .status _ _ :: rest => readingsOf rest
  | .encoded _ :: rest => readingsOf rest

/-- POLL (R80): FEED, then a DECODE for each returned frame; its result is the list of Readings. -/
def poll (bs : List Byte) (ts : Nat) (s : State) : Host.Outcome (List Reading × State) Fault Refusal :=
  andThen (runProgram (feed bs) s) fun r =>
    andThen (runProgram (decodeAll (framesOf r.1) ts) r.2) fun q => .next (readingsOf q.1, q.2)

/-! ### Kinds of instruction -/

/-- The six operations of R75 that have a meaning, and RESET (R18: "operation"). -/
def isOperation : Instr → Bool
  | .nop => true
  | .append _ => true
  | .extract => true
  | .status => true
  | .decode _ _ => true
  | .encode _ _ _ => true
  | .reset => true
  | .reservedOp6 => false
  | .reservedOp7 => false
  | .markerStart => false
  | .markerEnd => false
  | .cmd _ _ _ => false
  | .cmdI _ _ => false
  | .cmdR _ _ => false
  | .cmdP _ _ => false
  | .tlmFrame33 _ _ _ _ _ _ => false
  | .tlmFrame13 _ _ => false
  | .tlmFrame23 _ _ _ _ => false
  | .modeCurrent _ _ _ => false
  | .modeResistance _ _ _ => false
  | .modePower _ _ _ => false
  | .modeNone _ _ _ _ => false
  | .errOk _ _ _ => false
  | .errInvalidChannel => false
  | .errInvalidMethod => false
  | .errInvalidValue => false

/-- The reserved op codes (R75). -/
def isReserved : Instr → Bool
  | .reservedOp6 => true
  | .reservedOp7 => true
  | _ => false

/-- The bytes an instruction appends to RawBuffer: APPEND's operand, a marker's two bytes, else nothing. -/
def appended : Instr → List Byte
  | .append bs => bs
  | .markerStart => [0x3C, 0x3A]
  | .markerEnd => [0x3A, 0x3E]
  | _ => []

/-- The instructions that may write RawBuffer (R20: APPEND, EXTRACT, RESET; the markers append). -/
def mayWriteBuf : Instr → Bool
  | .append _ => true
  | .extract => true
  | .reset => true
  | .markerStart => true
  | .markerEnd => true
  | _ => false

/-- The timestamp a request carries on the port `dec_ts`. -/
def requestTs : Request → Nat
  | .ports p => p.decTs
  | .wire _ ts => ts
  | .modeByte _ _ _ ts => ts
  | .errCode _ _ _ _ => 0
  | .noFormat _ _ => 0

/-- The byte at index `a` of a frame as a number, 0 outside it. -/
def byteNat (f : List Byte) (a : Nat) : Nat := (f.getD a 0).toNat

/-- The value of the field of one byte at `a` as the spec words it (R14): the byte when it lies inside, else 0. -/
def field1 (f : List Byte) (a : Nat) : Nat := if a + 1 ≤ f.length then byteNat f a else 0

/-- The value of the field of two bytes at `a` as the spec words it (R14, R64). -/
def field2 (f : List Byte) (a : Nat) : Nat := if a + 2 ≤ f.length then byteNat f a * 256 + byteNat f (a + 1) else 0

/-- `n` is what ENCODE sends for the value `q` (R133): 0 up to 0, 65535 from 65535 on, else the integer part. -/
def SentAs (q : Rat) (n : Nat) : Prop :=
  (q ≤ 0 → n = 0) ∧ (65535 ≤ q → n = 65535) ∧ (0 ≤ q → q < 65535 → (n : Rat) ≤ q ∧ q < (n : Rat) + 1)

/-- The four values of a channel, as R110 computes them from V, I, G, the mode byte and POWER_SCALE. -/
def ChannelIs (scale v i g mode : Nat) (c : ChannelReading) : Prop :=
  c.voltage.toNat = v
    ∧ c.current.toNat = (if mode = 1 then g else i)
    ∧ c.resistance = (if mode = 2 then (g : Rat) else if i ≠ 0 then (v : Rat) / (i : Rat) else 0)
    ∧ c.power = (if mode = 3 then g else v * i * scale)

/-- The all-zero ChannelReading (R31). -/
def zeroChannel : ChannelReading where
  voltage := 0
  current := 0
  resistance := 0
  power := 0

/-- The two byte sequences agree on which of the twelve fields lie inside and on the bytes of those that do: on what DECODE
reads (R111). -/
def SameToDecode (f g : List Byte) : Prop :=
  ∀ x ∈ frameFields, (x.1 + x.2 ≤ f.length ↔ x.1 + x.2 ≤ g.length)
    ∧ (x.1 + x.2 ≤ f.length → ∀ a, x.1 ≤ a → a < x.1 + x.2 → f[a]? = g[a]?)

end Sys2Proof.Machine
end

