-- ==== Sys2Proof/Certificates/Slice0/Obligations.lean ====
section
/-!
DEFINITION. The statements for the provers, from the numbered rules of spec/. A result of an operation is read in `State.out`
(notes/assumptions 2).
-/

open Sys2Proof Sys2Proof.Machine

/-! ### Reset, the invariant, the step -/

/-- After reset the buffer is empty and the counter 0 (R35), the parameters are the defaults of R9. That nothing is issued
and no result is presented is the model's choice (notes/assumptions 1, 2). -/
def Obligations.ResetStateValues : Prop :=
  State.reset.buf = [] ∧ State.reset.ovfCount = 0 ∧ State.reset.cfg = Config.defaults
    ∧ State.reset.pending = [] ∧ State.reset.out = .none

/-- The reset state meets the invariant: an admissible instance (R9), the buffer within its capacity (R20), the counter
within its width (R21). -/
def Obligations.ResetMeetsInvariant : Prop := State.reset.Inv

/-- Every step keeps the invariant, whatever is issued. -/
def Obligations.StepKeepsInvariant : Prop := ∀ s t : State, s.Inv → step s = .next t → t.Inv

/-- No step writes a parameter (R10), and a step takes exactly the oldest request off the queue (the queue is the model's,
notes/assumptions 1). -/
def Obligations.StepKeepsParameters : Prop :=
  ∀ s t : State, step s = .next t → t.cfg = s.cfg ∧ t.pending = s.pending.tail

/-- When the oldest request decodes to a well-formed instruction, the step is exec of it on the state without that request (the
model's fetch, notes/assumptions 1) and without the earlier result (R24; notes/assumptions 2). -/
def Obligations.StepRunsDecodedInstruction : Prop :=
  ∀ (s : State) (r : Request) (rest : List Request) (i : Instr),
    s.pending = r :: rest → decode r = .ok i → i.wf s.cfg = true →
      step s = exec i { s with pending := rest, out := .none }

/-- With nothing issued the block, the parameters and the empty queue stay as they are (R167), and the result handed over before
is dropped: it is no state (R24; that it stood in the machine for one step is the model's, notes/assumptions 2). A request that does not decode, and an operand its port cannot
carry, have no step (the model's choice, notes/assumptions 16, 20). -/
def Obligations.StepWithoutInstruction : Prop :=
  (∀ s : State, s.pending = [] → step s = .next { s with out := .none })
    ∧ (∀ (s : State) (r : Request) (rest : List Request) (e : DecodeError),
        s.pending = r :: rest → decode r = .error e → step s = .refused (.undecodable e))
    ∧ ∀ (s : State) (r : Request) (rest : List Request) (i : Instr),
        s.pending = r :: rest → decode r = .ok i → i.wf s.cfg = false → step s = .refused .illFormed

/-! ### Encodings -/

/-- Decoding the encoding of a well-formed instruction gives it back, every operand at every value. -/
def Obligations.DecodeOfEncode : Prop :=
  ∀ (c : Config) (i : Instr), i.wf c = true → decode (encode i) = .ok i

/-- The bytes on the serial line that decode to an instruction are the ones that encode it: each word has one meaning. -/
def Obligations.EncodeOfDecodedWire : Prop :=
  ∀ (bs : List Byte) (ts : Nat) (i : Instr), decode (.wire bs ts) = .ok i → ∃ ts', encode i = .wire bs ts'

/-- What the decoder reads is well formed when the timestamp fits its port: no other check can fail after decoding. -/
def Obligations.DecodedIsWellFormed : Prop :=
  ∀ (c : Config) (r : Request) (i : Instr), decode r = .ok i → requestTs r < 2 ^ c.tsW → i.wf c = true

/-- Words written out from R60, R70 to R72, R75, R66 and R151 decode to the rows they stand for. -/
def Obligations.WrittenOutWordsDecode : Prop :=
  decodeTableWord 3 0b010 = some .extract
    ∧ decodeTableWord 3 0b110 = some .reservedOp6
    ∧ decodeTableWord 1 0b1 = some .reset
    ∧ decodeTableWord 16 0x3C3A = some .markerStart
    ∧ decodeTableWord 16 0x3A3E = some .markerEnd
    ∧ decodeTableWord 80 0x3C3A023A023A012C3A3E = some (.cmdR 2 300)
    ∧ decodeTableWord 2 0b10 = some .errInvalidMethod
    ∧ decode (.modeByte 0x02 .ch3 ⟨1, 2, 3⟩ 4) = .ok (.modeResistance .ch3 ⟨1, 2, 3⟩ 4)
    ∧ decode (.wire [0x3C, 0x3A, 0x00, 0x0A, 0x3A, 0x00, 0x03, 0x3A, 0x01, 0x00, 0x14, 0x3A, 0x3E] 7)
        = .ok (.tlmFrame13 ⟨10, 0x3A, 3, 0x3A, 1, 20⟩ 7)

/-! ### Frame Extractor -/

/-- NOP reads and writes no state and has no result (R75). -/
def Obligations.NopChangesNothing : Prop := ∀ s : State, exec .nop s = .next { s with out := .none }

/-- APPEND puts its bytes at the end of the buffer and changes nothing else (R90), within the physical capacity (R91). -/
def Obligations.AppendConcatenates : Prop :=
  ∀ (bs : List Byte) (s : State), Memory.wf s.cfg.bufPhysCap (s.buf ++ bs) = true →
    exec (.append bs) s = .next { s with buf := s.buf ++ bs, out := .none }

/-- A marker row appends the two bytes of R60: the model's choice (notes/assumptions 6). -/
def Obligations.MarkerRowsAppendTheirBytes : Prop :=
  (∀ s : State, Memory.wf s.cfg.bufPhysCap (s.buf ++ [0x3C, 0x3A]) = true →
      exec .markerStart s = .next { s with buf := s.buf ++ [0x3C, 0x3A], out := .none })
    ∧ (∀ s : State, Memory.wf s.cfg.bufPhysCap (s.buf ++ [0x3A, 0x3E]) = true →
      exec .markerEnd s = .next { s with buf := s.buf ++ [0x3A, 0x3E], out := .none })
    ∧ (∀ s : State, Memory.wf s.cfg.bufPhysCap (s.buf ++ [0x3C, 0x3A]) = false →
      exec .markerStart s = .refused .capacityExceeded)
    ∧ ∀ s : State, Memory.wf s.cfg.bufPhysCap (s.buf ++ [0x3A, 0x3E]) = false →
      exec .markerEnd s = .refused .capacityExceeded

/-- With a finite capacity, an APPEND beyond it has no next state, and one within it has; with an unbounded capacity every
APPEND has one (R91). -/
def Obligations.AppendRefusedExactlyBeyondCapacity : Prop :=
  (∀ (bs : List Byte) (s : State) (cap : Nat), s.cfg.bufPhysCap = some cap →
      (exec (.append bs) s = .refused .capacityExceeded ↔ cap < s.buf.length + bs.length))
    ∧ ∀ (bs : List Byte) (s : State), s.cfg.bufPhysCap = none → ∃ t, exec (.append bs) s = .next t

/-- APPEND of `a ++ b` is APPEND of `a` followed by APPEND of `b`, refusals included (R90). -/
def Obligations.AppendSplits : Prop :=
  ∀ (a b : List Byte) (s : State), exec (.append (a ++ b)) s = andThen (exec (.append a) s) (exec (.append b))

/-- APPEND: the bytes already in the buffer keep their indices and values, and the new ones follow in order (R20, R43). That a
marker row appends its two bytes, and so falls under this statement, is the model's choice (notes/assumptions 6). -/
def Obligations.AppendKeepsEveryByte : Prop :=
  ∀ (i : Instr) (s t : State), i = .append (appended i) ∨ i = .markerStart ∨ i = .markerEnd →
    exec i s = .next t →
      (∀ a, a < s.buf.length → Memory.byte? t.buf a = Memory.byte? s.buf a)
        ∧ (∀ j, Memory.byte? t.buf (s.buf.length + j) = (appended i)[j]?)
        ∧ t.ovfCount = s.ovfCount ∧ t.cfg = s.cfg ∧ t.pending = s.pending

/-- EXTRACT is the loop of R92 followed by the overflow policy (R95): for every state, the frames the loop cuts out, what is
left of the buffer, and its last TAIL_KEEP bytes with one more overflow counted, saturating, when more than MAX_BUF are left. -/
def Obligations.ExtractRunsTheLoop : Prop :=
  ∀ s : State, ∃ fs rem, Extracts s.cfg.endScanSkip s.buf fs rem ∧
    exec .extract s = .next
      (if s.cfg.maxBuf < rem.length then
        { s with
          buf := rem.drop (rem.length - s.cfg.tailKeep)
          ovfCount := min (s.ovfCount + 1) (2 ^ s.cfg.ovfW - 1)
          out := .frames fs }
       else { s with buf := rem, out := .frames fs })

/-- The loop of R92 has one outcome: which frames, in which order, and what is left are determined by the bytes. -/
def Obligations.ExtractLoopDetermined : Prop :=
  ∀ (skip : Nat) (b : List Byte) (fs fs' : List Frame) (rem rem' : List Byte),
    Extracts skip b fs rem → Extracts skip b fs' rem' → fs = fs' ∧ rem = rem'

/-- After EXTRACT the buffer is at most MAX_BUF long and holds no complete frame (R28), for every buffer and every instance
with TAIL_KEEP at most MAX_BUF; EXTRACT always returns (R98). -/
def Obligations.ExtractEstablishesBound : Prop :=
  ∀ s : State, s.cfg.tailKeep ≤ s.cfg.maxBuf →
    ∃ t, exec .extract s = .next t ∧ t.buf.length ≤ s.cfg.maxBuf ∧ NoCompleteFrame s.cfg.endScanSkip t.buf

/-- A second EXTRACT with nothing between returns no frame and changes neither the buffer nor the counter (R99). -/
def Obligations.ExtractIdempotent : Prop :=
  ∀ s t : State, s.cfg.tailKeep ≤ s.cfg.maxBuf → exec .extract s = .next t →
    exec .extract t = .next { t with out := .frames [] }

/-- With no complete frame in a buffer of at most MAX_BUF bytes EXTRACT leaves everything as it is, garbage included, and
returns no frame (R94); with more than MAX_BUF bytes it keeps the last TAIL_KEEP and counts one overflow (R95, R96). -/
def Obligations.ExtractWaitsForMoreBytes : Prop :=
  ∀ s : State, NoCompleteFrame s.cfg.endScanSkip s.buf →
    (s.buf.length ≤ s.cfg.maxBuf → exec .extract s = .next { s with out := .frames [] })
      ∧ (s.cfg.maxBuf < s.buf.length → exec .extract s = .next
          { s with
            buf := s.buf.drop (s.buf.length - s.cfg.tailKeep)
            ovfCount := min (s.ovfCount + 1) (2 ^ s.cfg.ovfW - 1)
            out := .frames [] })

/-- Every returned frame begins with the start marker, ends with the end marker, is at least END_SCAN_SKIP + 2 bytes long
and has no end marker inside before its own (R29). -/
def Obligations.ReturnedFramesHaveFrameShape : Prop :=
  ∀ (s t : State) (fs : List Frame) (f : Frame),
    s.cfg.endScanSkip = 1 ∨ s.cfg.endScanSkip = 2 → exec .extract s = .next t → t.out = .frames fs → f ∈ fs →
      f[0]? = some 0x3C ∧ f[1]? = some 0x3A
        ∧ f[f.length - 2]? = some 0x3A ∧ f[f.length - 1]? = some 0x3E
        ∧ s.cfg.endScanSkip + 2 ≤ f.length
        ∧ ∀ i, s.cfg.endScanSkip ≤ i → i + 2 < f.length → ¬ (f[i]? = some 0x3A ∧ f[i + 1]? = some 0x3E)

/-- The frames of one EXTRACT are disjoint contiguous slices of the buffer in stream order, each after some garbage, and what
stays is a suffix of the rest (R54). -/
def Obligations.FramesAreOrderedDisjointSlices : Prop :=
  ∀ (s t : State) (fs : List Frame), exec .extract s = .next t → t.out = .frames fs →
    ∃ (gs : List (List Byte)) (rem : List Byte), gs.length = fs.length
      ∧ s.buf = (List.zipWith (· ++ ·) gs fs).flatten ++ rem ∧ t.buf <:+ rem

/-- One EXTRACT returns at most `len(buf) / (END_SCAN_SKIP + 2)` frames (R97). -/
def Obligations.FrameCountBounded : Prop :=
  ∀ (s t : State) (fs : List Frame),
    s.cfg.endScanSkip = 1 ∨ s.cfg.endScanSkip = 2 → exec .extract s = .next t → t.out = .frames fs →
      fs.length ≤ s.buf.length / (s.cfg.endScanSkip + 2)

/-- EXTRACT writes the buffer, the counter and its result, nothing else; the buffer it leaves is a suffix of the one it found
(R13, R27). -/
def Obligations.ExtractFrame : Prop :=
  ∀ s t : State, exec .extract s = .next t →
    t.cfg = s.cfg ∧ t.pending = s.pending ∧ t.buf <:+ s.buf
      ∧ (t.ovfCount = s.ovfCount ∨ t.ovfCount = min (s.ovfCount + 1) (2 ^ s.cfg.ovfW - 1))

/-- Any number of APPENDs and one EXTRACT is one APPEND of all the bytes and one EXTRACT: same frames, same state (R101(a)). -/
def Obligations.ManyAppendsOneExtract : Prop :=
  ∀ (s : State) (chunks : List (List Byte)), Memory.wf s.cfg.bufPhysCap (s.buf ++ chunks.flatten) = true →
    ∃ os os' t, runProgram (chunks.map Instr.append ++ [.extract]) s = .next (os, t)
      ∧ runProgram [.append chunks.flatten, .extract] s = .next (os', t) ∧ framesOf os = framesOf os'

/-- Chunking invariance (R101(b)): an EXTRACT after every chunk gives, all together, the frames of one APPEND of all the bytes
and one EXTRACT, and the same buffer and counter, provided no EXTRACT of the chunked run truncates, whatever the counter is. -/
def Obligations.ChunkingInvariance : Prop :=
  ∀ (s t : State) (c : List Byte) (cs : List (List Byte)) (os : List Output),
    Memory.wf s.cfg.bufPhysCap (s.buf ++ (c :: cs).flatten) = true →
    NoFeedTruncates (c :: cs) s → runProgram (feedAll (c :: cs)) s = .next (os, t) →
      t.ovfCount = s.ovfCount
        ∧ ∃ os' u, runProgram (feed (c :: cs).flatten) s = .next (os', u)
          ∧ framesOf os' = framesOf os ∧ u.buf = t.buf ∧ u.ovfCount = s.ovfCount

/-- At every point of every run the buffer is a suffix of the bytes appended since the last RESET (R27). -/
def Obligations.BufferIsSuffixOfStream : Prop :=
  ∀ (is : List Instr) (s t : State) (os : List Output) (acc : List Byte),
    s.buf <:+ acc → runProgram is s = .next (os, t) → t.buf <:+ streamOf is acc

/-- The two readings of END_SCAN_SKIP differ only on buffers in which 0x3E directly follows a start marker (R93). -/
def Obligations.EndScanSkipsAgree : Prop :=
  ∀ s t : State,
    (∀ i : Nat, ¬ (s.buf[i]? = some 0x3C ∧ s.buf[i + 1]? = some 0x3A ∧ s.buf[i + 2]? = some 0x3E)) →
    exec .extract { s with cfg := { s.cfg with endScanSkip := 1 } } = .next t →
      exec .extract { s with cfg := { s.cfg with endScanSkip := 2 } }
        = .next { t with cfg := { t.cfg with endScanSkip := 2 } }

/-- Marker-free bytes beyond the cap: the EXTRACT that follows returns nothing, keeps TAIL_KEEP bytes and counts one overflow
(R103). -/
def Obligations.MarkerFreeOverflow : Prop :=
  ∀ (s : State) (bs : List Byte), s.buf = [] → NoPair bs startMarker 0 → s.cfg.maxBuf < bs.length →
    s.cfg.tailKeep ≤ s.cfg.maxBuf → Memory.wf s.cfg.bufPhysCap bs = true →
      ∃ t, runProgram (feed bs) s = .next ([.none, .frames []], t)
        ∧ t.buf.length = s.cfg.tailKeep ∧ t.ovfCount = min (s.ovfCount + 1) (2 ^ s.cfg.ovfW - 1)

/-- STATUS returns the buffer's length and the overflow count and writes no state (R100). -/
def Obligations.StatusReportsLengthAndCount : Prop :=
  ∀ s : State, exec .status s = .next { s with out := .status s.buf.length s.ovfCount }

/-- RESET empties the buffer, clears the counter and leaves the parameters; the input `rst` takes precedence over whatever `op`
and operands are presented with it (R170). -/
def Obligations.ResetEmptiesAndClears : Prop :=
  (∀ s : State, exec .reset s = .next { s with buf := [], ovfCount := 0, out := .none })
    ∧ ∀ p : Ports, p.rst = 1 → decode (.ports p) = .ok .reset

/-- The reserved op codes 6 and 7 have no step (R75). -/
def Obligations.ReservedOpsRefused : Prop :=
  ∀ s : State, exec .reservedOp6 s = .refused (.reservedOp 6) ∧ exec .reservedOp7 s = .refused (.reservedOp 7)

/-! ### Reading Decoder -/

/-- FrameRead gives the whole field, big-endian, or 0 when it does not fit (R14). -/
def Obligations.FrameReadWholeFieldOrZero : Prop :=
  ∀ (f : Frame) (a : Nat),
    (a + 1 ≤ f.length → (frameRead8 f a).toNat = byteNat f a) ∧ (f.length < a + 1 → (frameRead8 f a).toNat = 0)
      ∧ (a + 2 ≤ f.length → (frameRead16 f a).toNat = byteNat f a * 256 + byteNat f (a + 1))
      ∧ (f.length < a + 2 → (frameRead16 f a).toNat = 0)

/-- DECODE presents the Reading of R110 for every byte sequence and timestamp, and writes no state: each channel from the
fields at its positions, derived first, then overridden by its mode byte. -/
def Obligations.DecodeComputesReading : Prop :=
  ∀ (f : Frame) (ts : Nat) (s : State), ∃ r, exec (.decode f ts) s = .next { s with out := .reading r } ∧ r.ts = ts
    ∧ ChannelIs s.cfg.powerScale (field2 f 2) (field2 f 5) (field2 f 9) (field1 f 8) r.ch1
    ∧ ChannelIs s.cfg.powerScale (field2 f 12) (field2 f 15) (field2 f 19) (field1 f 18) r.ch2
    ∧ ChannelIs s.cfg.powerScale (field2 f 22) (field2 f 25) (field2 f 29) (field1 f 28) r.ch3

/-- DECODE cannot see the unread positions: byte sequences that agree on the 21 positions it reads and on which fields lie
inside decode alike (R111), so everything from index 31 on is ignored (R122). -/
def Obligations.DecodeIgnoresUnreadBytes : Prop :=
  (∀ (f g : Frame) (ts : Nat) (s : State), SameToDecode f g → exec (.decode f ts) s = exec (.decode g ts) s)
    ∧ ∀ (f : Frame) (ts : Nat) (s : State), exec (.decode f ts) s = exec (.decode (f.take 31) ts) s

/-- The ranges of a Reading (R30, R116, R117): resistance 0..65535, power at most 65535 * 65535 * POWER_SCALE, which fits
its port at every scale, 42 bits wide at the default one (R76). -/
def Obligations.ReadingRanges : Prop :=
  ∀ (f : Frame) (ts : Nat) (s t : State) (r : Reading) (k : Channel),
    1 ≤ s.cfg.powerScale → exec (.decode f ts) s = .next t → t.out = .reading r →
      0 ≤ (r.ch k).resistance ∧ (r.ch k).resistance ≤ 65535
        ∧ (r.ch k).power ≤ 65535 * 65535 * s.cfg.powerScale
        ∧ (rdPower s.cfg.powerScale r k).toNat = (r.ch k).power
        ∧ (s.cfg.powerScale = 1000 → powerBits s.cfg.powerScale = 42)

/-- A channel whose voltage field lies beyond the frame is all zero (R120): no field of it fits. -/
def Obligations.AbsentChannelIsZero : Prop :=
  ∀ (f : Frame) (ts : Nat) (s t : State) (r : Reading) (k : Channel),
    exec (.decode f ts) s = .next t → t.out = .reading r → f.length < chanBase k + 4 → r.ch k = zeroChannel

/-- The end marker of a short frame is read as field data at the lengths of the table R121, for every channel; the later fields
of the channel, and every field of the later channels, are 0 there. -/
def Obligations.ShortFrameFieldsHoldMarkerBytes : Prop :=
  ∀ (f : Frame) (k : Channel), f[f.length - 2]? = some 0x3A → f[f.length - 1]? = some 0x3E →
    (f.length = chanBase k + 4 →
        (rawRegs f k).v = 0x3A3E ∧ (rawRegs f k).i = 0 ∧ modeByte f k = 0 ∧ (rawRegs f k).g = 0)
      ∧ (f.length = chanBase k + 5 →
        (rawRegs f k).v.toNat = byteNat f (chanBase k + 2) * 256 + 0x3A
          ∧ (rawRegs f k).i = 0 ∧ modeByte f k = 0 ∧ (rawRegs f k).g = 0)
      ∧ (f.length = chanBase k + 7 → (rawRegs f k).i = 0x3A3E ∧ modeByte f k = 0 ∧ (rawRegs f k).g = 0)
      ∧ (f.length = chanBase k + 8 →
        (rawRegs f k).i.toNat = byteNat f (chanBase k + 5) * 256 + 0x3A ∧ modeByte f k = 0 ∧ (rawRegs f k).g = 0)
      ∧ (f.length = chanBase k + 9 → modeByte f k = 0x3E ∧ (rawRegs f k).g = 0)
      ∧ (f.length = chanBase k + 10 → modeByte f k = 0x3A ∧ (rawRegs f k).g = 0)
      ∧ (f.length = chanBase k + 11 → (rawRegs f k).g = 0x3A3E)
      ∧ (f.length = chanBase k + 12 → (rawRegs f k).g.toNat = byteNat f (chanBase k + 9) * 256 + 0x3A)
      ∧ (f.length ≤ chanBase k + 12 → ∀ j, chanBase k < chanBase j → rawRegs f j = ⟨0, 0, 0⟩ ∧ modeByte f j = 0)

/-- The clean telemetry frames decode to the fields they carry; channels they do not carry are zero (R62, R65). That a
telemetry row is run as DECODE is the model's choice (notes/assumptions 8). -/
def Obligations.TelemetryRowsDecodeTheirFields : Prop :=
  (∀ (g1 : ChanGroup) (ts : Nat) (s : State), ∃ r,
      exec (.tlmFrame13 g1 ts) s = .next { s with out := .reading r } ∧ r.ts = ts
        ∧ ChannelIs s.cfg.powerScale g1.voltage.toNat g1.current.toNat g1.ancillary.toNat g1.mode.toNat r.ch1
        ∧ r.ch2 = zeroChannel ∧ r.ch3 = zeroChannel)
    ∧ (∀ (g1 : ChanGroup) (x : Byte) (g2 : ChanGroup) (ts : Nat) (s : State), ∃ r,
      exec (.tlmFrame23 g1 x g2 ts) s = .next { s with out := .reading r } ∧ r.ts = ts
        ∧ ChannelIs s.cfg.powerScale g1.voltage.toNat g1.current.toNat g1.ancillary.toNat g1.mode.toNat r.ch1
        ∧ ChannelIs s.cfg.powerScale g2.voltage.toNat g2.current.toNat g2.ancillary.toNat g2.mode.toNat r.ch2
        ∧ r.ch3 = zeroChannel)
    ∧ ∀ (g1 : ChanGroup) (x : Byte) (g2 : ChanGroup) (y : Byte) (g3 : ChanGroup) (ts : Nat) (s : State), ∃ r,
      exec (.tlmFrame33 g1 x g2 y g3 ts) s = .next { s with out := .reading r } ∧ r.ts = ts
        ∧ ChannelIs s.cfg.powerScale g1.voltage.toNat g1.current.toNat g1.ancillary.toNat g1.mode.toNat r.ch1
        ∧ ChannelIs s.cfg.powerScale g2.voltage.toNat g2.current.toNat g2.ancillary.toNat g2.mode.toNat r.ch2
        ∧ ChannelIs s.cfg.powerScale g3.voltage.toNat g3.current.toNat g3.ancillary.toNat g3.mode.toNat r.ch3

/-- The mode bytes 1, 2, 3 replace current, resistance, power by G, unscaled, and nothing else; any other mode byte replaces
nothing (R66, R118, R119). That a mode row is run over one channel's registers, the other channels zero, is the model's
choice (notes/assumptions 9). -/
def Obligations.ModeRowsOverrideOneField : Prop :=
  ∀ (k : Channel) (regs : RawRegs) (ts : Nat) (s : State),
    (∃ r, exec (.modeCurrent k regs ts) s = .next { s with out := .reading r } ∧ r.ts = ts
        ∧ ChannelIs s.cfg.powerScale regs.v.toNat regs.i.toNat regs.g.toNat 1 (r.ch k)
        ∧ ∀ j, j ≠ k → r.ch j = zeroChannel)
      ∧ (∃ r, exec (.modeResistance k regs ts) s = .next { s with out := .reading r } ∧ r.ts = ts
        ∧ ChannelIs s.cfg.powerScale regs.v.toNat regs.i.toNat regs.g.toNat 2 (r.ch k)
        ∧ ∀ j, j ≠ k → r.ch j = zeroChannel)
      ∧ (∃ r, exec (.modePower k regs ts) s = .next { s with out := .reading r } ∧ r.ts = ts
        ∧ ChannelIs s.cfg.powerScale regs.v.toNat regs.i.toNat regs.g.toNat 3 (r.ch k)
        ∧ ∀ j, j ≠ k → r.ch j = zeroChannel)
      ∧ ∀ m : Byte, m ≠ 1 → m ≠ 2 → m ≠ 3 →
        ∃ r, exec (.modeNone m k regs ts) s = .next { s with out := .reading r } ∧ r.ts = ts
          ∧ ChannelIs s.cfg.powerScale regs.v.toNat regs.i.toNat regs.g.toNat 0 (r.ch k)
          ∧ ∀ j, j ≠ k → r.ch j = zeroChannel

/-! ### Command Encoder -/

/-- With a recognised channel and method and a number, ENCODE presents the ten bytes of R70 with the codes of R71, R72 and
the clamped and truncated value, high byte first (R73), and writes no state (R130). -/
def Obligations.EncodeBuildsPacket : Prop :=
  (Channel.ch1.code = 1 ∧ Channel.ch2.code = 2 ∧ Channel.ch3.code = 3)
    ∧ (Method.i.code = 1 ∧ Method.r.code = 2 ∧ Method.p.code = 3)
    ∧ ∀ (c : Channel) (m : Method) (v : CmdValue) (q : Rat) (s : State), numberOf s.cfg v = some q →
      ∃ (p : Packet) (n : Nat), exec (.encode (.known c) (.known m) v) s = .next { s with out := .encoded (.ok p) }
        ∧ SentAs q n ∧ n ≤ 65535
        ∧ p.toList = [0x3C, 0x3A, c.code, 0x3A, m.code, 0x3A, BitVec.ofNat 8 (n / 256), BitVec.ofNat 8 (n % 256), 0x3A, 0x3E]

/-- Truncating first and clamping after gives the same value field (R133). -/
def Obligations.TruncateThenClampAgrees : Prop :=
  ∀ q : Rat, ((valueField q).toNat : Int) = max 0 (min 65535 (trunc q))

/-- A bad operand gives the error value of the first failing check in the order channel, method, value, and changes no state
(R131, R132, R134, R156). That a raw port word is read through the instance's VAL_REPR, with a free value
for a word it does not list, is the model's choice (notes/assumptions 14). -/
def Obligations.EncodeReportsFirstBadOperand : Prop :=
  (∀ (b : Byte) (m : MethodId) (v : CmdValue) (s : State),
      exec (.encode (.unrecognised b) m v) s = .next { s with out := .encoded (.error .invalidChannel) })
    ∧ (∀ (c : Channel) (b : Byte) (v : CmdValue) (s : State),
      exec (.encode (.known c) (.unrecognised b) v) s = .next { s with out := .encoded (.error .invalidMethod) })
    ∧ (∀ (c : Channel) (m : Method) (s : State),
      exec (.encode (.known c) (.known m) .nan) s = .next { s with out := .encoded (.error .invalidValue) })
    ∧ ∀ (c : Channel) (m : Method) (w : Nat) (s : State),
      exec (.encode (.known c) (.known m) (.portWord w)) s
        = (valWord s.cfg w).elim (.next { s with out := .encoded (.error .invalidValue) })
            fun q => exec (.encode (.known c) (.known m) (.number q)) s

/-- The ports of a result: `enc_err` is 0 for a packet, which stands on `enc_pkt`, and 1, 2, 3 for the errors, and `enc_pkt` is
then all zero (R151). -/
def Obligations.ErrorPortsOfResult : Prop :=
  (∀ p, encErr (.ok p) = 0 ∧ encPkt (.ok p) = packetWord p) ∧ encErr (.error .invalidChannel) = 1 ∧ encErr (.error .invalidMethod) = 2
    ∧ encErr (.error .invalidValue) = 3 ∧ ∀ e, encPkt (.error e) = 0

/-- Every packet as an 80-bit word: the constants under the mask of R70, and the three free fields in their bits. -/
def Obligations.PacketWordFields : Prop :=
  ∀ (c : Channel) (m : Method) (n : U16),
    (packetWord (packetOf c m n) &&& 0xFFFF00FF00FF0000FFFF#80) = 0x3C3A003A003A00003A3E#80
      ∧ (packetWord (packetOf c m n)).extractLsb' 56 8 = c.code
      ∧ (packetWord (packetOf c m n)).extractLsb' 40 8 = m.code
      ∧ (packetWord (packetOf c m n)).extractLsb' 16 16 = n

/-- ENCODE emits exactly the 3 * 3 * 65536 packets of a channel, a method and a 16-bit value, all different (R74). -/
def Obligations.EmittedPackets : Prop :=
  (∀ (c c' : Channel) (m m' : Method) (n n' : U16), packetOf c m n = packetOf c' m' n' → c = c' ∧ m = m' ∧ n = n')
    ∧ ∀ (p : Packet) (s : State),
      (∃ ch m v, exec (.encode ch m v) s = .next { s with out := .encoded (.ok p) }) ↔ ∃ c m n, p = packetOf c m n

/-- The command rows: with the codes of a channel and a method the result is the very packet the row describes (R70 to R73,
R130), and a code outside 1..3 is an unrecognised identifier. That a command row is run as the ENCODE that produces it is the
model's choice (notes/assumptions 7). -/
def Obligations.CommandRowsEncodeThemselves : Prop :=
  (∀ (c : Channel) (m : Method) (n : U16) (s : State),
      exec (.cmd c.code m.code n) s = .next { s with out := .encoded (.ok (packetOf c m n)) })
    ∧ (∀ (c : Channel) (n : U16) (s : State),
      exec (.cmdI c.code n) s = .next { s with out := .encoded (.ok (packetOf c .i n)) }
        ∧ exec (.cmdR c.code n) s = .next { s with out := .encoded (.ok (packetOf c .r n)) }
        ∧ exec (.cmdP c.code n) s = .next { s with out := .encoded (.ok (packetOf c .p n)) })
    ∧ (∀ (c : Channel) (m : Method) (n : U16), (packetOf c m n).toList = packetBytes c.code m.code n)
    ∧ (∀ (cc mc : Byte) (n : U16) (s : State), outsideOneToThree cc = true →
      exec (.cmd cc mc n) s = .next { s with out := .encoded (.error .invalidChannel) }
        ∧ exec (.cmdI cc n) s = .next { s with out := .encoded (.error .invalidChannel) }
        ∧ exec (.cmdR cc n) s = .next { s with out := .encoded (.error .invalidChannel) }
        ∧ exec (.cmdP cc n) s = .next { s with out := .encoded (.error .invalidChannel) })
    ∧ ∀ (c : Channel) (mc : Byte) (n : U16) (s : State), outsideOneToThree mc = true →
      exec (.cmd c.code mc n) s = .next { s with out := .encoded (.error .invalidMethod) }

/-- The error rows: `raise E` presents the error value and changes no state variable (R16); the Ok row presents the packet
of its fields (R151). That an error row is run as that end of ENCODE is the model's choice (notes/assumptions 10). -/
def Obligations.ErrorRowsPresentTheirResult : Prop :=
  ∀ s : State,
    exec .errInvalidChannel s = .next { s with out := .encoded (.error .invalidChannel) }
      ∧ exec .errInvalidMethod s = .next { s with out := .encoded (.error .invalidMethod) }
      ∧ exec .errInvalidValue s = .next { s with out := .encoded (.error .invalidValue) }
      ∧ ∀ (c : Channel) (m : Method) (n : U16),
        exec (.errOk c m n) s = .next { s with out := .encoded (.ok (packetOf c m n)) }

/-- A packet with no early end marker, appended to an empty buffer, is extracted whole and leaves the buffer empty; its
fields are recovered by position (R137). -/
def Obligations.PacketLoopback : Prop :=
  ∀ (s : State) (c : Channel) (m : Method) (n : U16),
    s.cfg.endScanSkip = 1 ∨ s.cfg.endScanSkip = 2 → s.buf = [] →
    Memory.wf s.cfg.bufPhysCap (packetOf c m n).toList = true →
    hiByte n ≠ 0x3E → n ≠ 0x3A3E →
      runProgram (feed (packetOf c m n).toList) s
          = .next ([.none, .frames [(packetOf c m n).toList]], { s with out := .frames [(packetOf c m n).toList] })
        ∧ byteNat (packetOf c m n).toList 2 = c.code.toNat
        ∧ byteNat (packetOf c m n).toList 4 = m.code.toNat
        ∧ byteNat (packetOf c m n).toList 6 * 256 + byteNat (packetOf c m n).toList 7 = n.toNat

/-- The 257 values whose packets hold an early end marker (R138): with high byte 0x3E the extractor ends the frame at packet
index 6, with value 0x3A3E at index 7; the rest stays, subject to the overflow policy (R95). R138 calls the rest garbage; that
after 0x3E3C the rest 3C 3A 3E is itself a frame when END_SCAN_SKIP is 1 is the model's reading, by R92 and R93
(notes/assumptions 25). -/
def Obligations.PacketEarlyEndMarker : Prop :=
  ∀ (s : State) (c : Channel) (m : Method) (n : U16),
    s.cfg.endScanSkip = 1 ∨ s.cfg.endScanSkip = 2 → s.buf = [] →
    Memory.wf s.cfg.bufPhysCap (packetOf c m n).toList = true →
      (hiByte n = 0x3E → (n ≠ 0x3E3C ∨ s.cfg.endScanSkip = 2) →
        runProgram (feed (packetOf c m n).toList) s
          = .next ([.none, .frames [(packetOf c m n).toList.take 7]],
              afterExtract [(packetOf c m n).toList.take 7] [loByte n, 0x3A, 0x3E] s))
      ∧ (n = 0x3E3C → s.cfg.endScanSkip = 1 →
        runProgram (feed (packetOf c m n).toList) s
          = .next ([.none, .frames [(packetOf c m n).toList.take 7, [0x3C, 0x3A, 0x3E]]],
              { s with out := .frames [(packetOf c m n).toList.take 7, [0x3C, 0x3A, 0x3E]] }))
      ∧ (n = 0x3A3E →
        runProgram (feed (packetOf c m n).toList) s
          = .next ([.none, .frames [(packetOf c m n).toList.take 8]],
              afterExtract [(packetOf c m n).toList.take 8] [0x3A, 0x3E] s))

/-! ### The whole machine -/

/-- Every instruction but the reserved op codes has a next state in every state; one that appends has it within the physical
capacity (R19, R91, R160). A stop is always a reserved op code (R75) or an append beyond the capacity (R91). That the label rows
have a step at all is the model's choice (notes/assumptions 6 to 10). -/
def Obligations.EveryInstructionCompletes : Prop :=
  ∀ (i : Instr) (s : State),
    (isReserved i = false →
      (i = .append (appended i) ∨ i = .markerStart ∨ i = .markerEnd →
        Memory.wf s.cfg.bufPhysCap (s.buf ++ appended i) = true) → ∃ t, exec i s = .next t)
      ∧ ((∀ t, exec i s ≠ .next t) →
        (∃ code, exec i s = .refused (.reservedOp code)) ∧ isReserved i = true
          ∨ exec i s = .refused .capacityExceeded ∧ (i = .append (appended i) ∨ i = .markerStart ∨ i = .markerEnd)
            ∧ Memory.wf s.cfg.bufPhysCap (s.buf ++ appended i) = false)

/-- Only APPEND, EXTRACT and RESET (and the marker rows, which append) write the buffer (R20): every other instruction leaves
every byte of it, the counter, the parameters and the queue as they were (R47, R136). -/
def Obligations.OtherInstructionsWriteNoState : Prop :=
  ∀ (i : Instr) (s t : State), mayWriteBuf i = false → exec i s = .next t →
    t.buf = s.buf ∧ (∀ a, Memory.byte? t.buf a = Memory.byte? s.buf a)
      ∧ t.ovfCount = s.ovfCount ∧ t.cfg = s.cfg ∧ t.pending = s.pending

/-- Only EXTRACT counts and only RESET clears (R21, R172): any other instruction leaves the counter, and EXTRACT raises it by
at most one and never lowers it. -/
def Obligations.OverflowCounterDiscipline : Prop :=
  ∀ (i : Instr) (s t : State), s.ovfCount ≤ s.cfg.ovfMax → exec i s = .next t →
    (i ≠ .extract → i ≠ .reset → t.ovfCount = s.ovfCount)
      ∧ (i = .extract → s.ovfCount ≤ t.ovfCount ∧ t.ovfCount ≤ s.ovfCount + 1 ∧ t.ovfCount ≤ s.cfg.ovfMax)
      ∧ (i = .reset → t.ovfCount = 0)

/-- An instruction reads neither the earlier result nor what is issued after it (R24, R51): its effect on the block depends on
the buffer, the counter and the parameters alone. The two fields are the model's (notes/assumptions 1, 2). -/
def Obligations.ResultAndQueueAreNeverRead : Prop :=
  ∀ (i : Instr) (s : State) (p : List Request) (o : Output),
    exec i { s with pending := p, out := o }
      = andThen (exec i s) fun t => .next { t with pending := p }

/-- DECODE and ENCODE are pure (R110, R130, R136): their results depend on their operands and the parameters, not on the
buffer or the counter. -/
def Obligations.DecodeAndEncodeArePure : Prop :=
  ∀ (s s' t t' : State) (i : Instr), s.cfg = s'.cfg →
    (∃ f ts, i = .decode f ts) ∨ (∃ ch m v, i = .encode ch m v) →
    exec i s = .next t → exec i s' = .next t' → t.out = t'.out

/-- Each row that is no operation has the effect of an operation (R81: such rows are labels): the model adds no behaviour to
the block (notes/assumptions 6 to 10). -/
def Obligations.LabelRowsAddNoBehaviour : Prop :=
  ∀ i : Instr, isOperation i = false → isReserved i = false →
    ∃ j : Instr, isOperation j = true ∧ ∀ s : State, exec i s = exec j s

/-- POLL (R80) returns one Reading for each frame of its FEED, in order, all with its timestamp, and leaves the buffer and the
counter as the FEED does. -/
def Obligations.PollReadsEveryFrame : Prop :=
  ∀ (bs : List Byte) (ts : Nat) (s t : State) (os : List Output), runProgram (feed bs) s = .next (os, t) →
    ∃ rs u, poll bs ts s = .next (rs, u) ∧ rs = (framesOf os).map (fun f => readingOf s.cfg.powerScale f ts)
      ∧ u.buf = t.buf ∧ u.ovfCount = t.ovfCount

/-- The block keeps no history but the buffer and the counter (R24, R34): from two states with equal blocks and parameters every
program has the same results in the same order and leaves equal blocks, or stops for the same reason, whatever frames, Readings,
packets or commands the caller held before. -/
def Obligations.BlockKeepsNoHistory : Prop :=
  ∀ (is : List Instr) (s s' : State), s.toBlock = s'.toBlock → s.cfg = s'.cfg →
    (∀ os t, runProgram is s = .next (os, t) →
        ∃ t', runProgram is s' = .next (os, t') ∧ t'.toBlock = t.toBlock ∧ t'.cfg = t.cfg)
      ∧ ∀ r, runProgram is s = .refused r → runProgram is s' = .refused r

/-- A claim about every instance covers every port format (R9, R10): whatever function VAL_REPR is on the words of a finite port,
and RES_REPR on a finite list of rationals, some instance that differs in that field alone has it. That the field is the
function's graph is the model's form (notes/assumptions 14, 15). -/
def Obligations.EveryPortFormatIsAnInstance : Prop :=
  (∀ (c : Config) (f : Nat → Option Rat) (width : Nat), ∃ g, ∀ w, w < 2 ^ width →
      valWord { c with valRepr := g } w = f w)
    ∧ ∀ (c : Config) (f : Rat → Nat) (qs : List Rat), ∃ g, ∀ q ∈ qs, resWord { c with resRepr := g } q = f q
end

