-- ==== Sys2Proof/Laws/State.lean ====
section
/-!
SUPPORT. One lemma per field per update of State.
-/

namespace Sys2Proof.Machine.State

@[simp] theorem setBuf_buf (s : State) (b : Memory) : (s.setBuf b).buf = b := rfl
@[simp] theorem setBuf_ovfCount (s : State) (b : Memory) : (s.setBuf b).ovfCount = s.ovfCount := rfl
@[simp] theorem setBuf_cfg (s : State) (b : Memory) : (s.setBuf b).cfg = s.cfg := rfl
@[simp] theorem setBuf_pending (s : State) (b : Memory) : (s.setBuf b).pending = s.pending := rfl
@[simp] theorem setBuf_out (s : State) (b : Memory) : (s.setBuf b).out = s.out := rfl

@[simp] theorem setOvf_buf (s : State) (n : Nat) : (s.setOvf n).buf = s.buf := rfl
@[simp] theorem setOvf_ovfCount (s : State) (n : Nat) : (s.setOvf n).ovfCount = n := rfl
@[simp] theorem setOvf_cfg (s : State) (n : Nat) : (s.setOvf n).cfg = s.cfg := rfl
@[simp] theorem setOvf_pending (s : State) (n : Nat) : (s.setOvf n).pending = s.pending := rfl
@[simp] theorem setOvf_out (s : State) (n : Nat) : (s.setOvf n).out = s.out := rfl

@[simp] theorem setPending_buf (s : State) (p : List Request) : (s.setPending p).buf = s.buf := rfl
@[simp] theorem setPending_ovfCount (s : State) (p : List Request) : (s.setPending p).ovfCount = s.ovfCount := rfl
@[simp] theorem setPending_cfg (s : State) (p : List Request) : (s.setPending p).cfg = s.cfg := rfl
@[simp] theorem setPending_pending (s : State) (p : List Request) : (s.setPending p).pending = p := rfl
@[simp] theorem setPending_out (s : State) (p : List Request) : (s.setPending p).out = s.out := rfl

@[simp] theorem setOut_buf (s : State) (o : Output) : (s.setOut o).buf = s.buf := rfl
@[simp] theorem setOut_ovfCount (s : State) (o : Output) : (s.setOut o).ovfCount = s.ovfCount := rfl
@[simp] theorem setOut_cfg (s : State) (o : Output) : (s.setOut o).cfg = s.cfg := rfl
@[simp] theorem setOut_pending (s : State) (o : Output) : (s.setOut o).pending = s.pending := rfl
@[simp] theorem setOut_out (s : State) (o : Output) : (s.setOut o).out = o := rfl

@[simp] theorem dropResult_buf (s : State) : s.dropResult.buf = s.buf := rfl
@[simp] theorem dropResult_ovfCount (s : State) : s.dropResult.ovfCount = s.ovfCount := rfl
@[simp] theorem dropResult_cfg (s : State) : s.dropResult.cfg = s.cfg := rfl
@[simp] theorem dropResult_pending (s : State) : s.dropResult.pending = s.pending := rfl
@[simp] theorem dropResult_out (s : State) : s.dropResult.out = .none := rfl
@[simp] theorem dropResult_toBlock (s : State) : s.dropResult.toBlock = s.toBlock := rfl

@[simp] theorem setBuf_toBlock (s : State) (b : Memory) : (s.setBuf b).toBlock = ⟨b, s.ovfCount⟩ := rfl
@[simp] theorem setOvf_toBlock (s : State) (n : Nat) : (s.setOvf n).toBlock = ⟨s.buf, n⟩ := rfl
@[simp] theorem setPending_toBlock (s : State) (p : List Request) : (s.setPending p).toBlock = s.toBlock := rfl
@[simp] theorem setOut_toBlock (s : State) (o : Output) : (s.setOut o).toBlock = s.toBlock := rfl

@[simp] theorem setBuf_toCaller (s : State) (b : Memory) : (s.setBuf b).toCaller = s.toCaller := rfl
@[simp] theorem setOvf_toCaller (s : State) (n : Nat) : (s.setOvf n).toCaller = s.toCaller := rfl
@[simp] theorem setPending_toCaller (s : State) (p : List Request) : (s.setPending p).toCaller = ⟨p, s.out⟩ := rfl
@[simp] theorem setOut_toCaller (s : State) (o : Output) : (s.setOut o).toCaller = ⟨s.pending, o⟩ := rfl

@[simp] theorem setBuf_self (s : State) : s.setBuf s.buf = s := rfl
@[simp] theorem setOut_setOut (s : State) (o o' : Output) : (s.setOut o).setOut o' = s.setOut o' := rfl
@[simp] theorem setBuf_setBuf (s : State) (b b' : Memory) : (s.setBuf b).setBuf b' = s.setBuf b' := rfl
theorem setOut_setBuf (s : State) (o : Output) (b : Memory) : (s.setOut o).setBuf b = (s.setBuf b).setOut o := rfl
theorem setOut_setPending (s : State) (o : Output) (p : List Request) :
    (s.setOut o).setPending p = (s.setPending p).setOut o := rfl
theorem setPending_setBuf (s : State) (p : List Request) (b : Memory) :
    (s.setPending p).setBuf b = (s.setBuf b).setPending p := rfl

end Sys2Proof.Machine.State
end

