-- ==== Sys2Proof/Laws/Ops.lean ====
section
/-!
SUPPORT. What each shared operation can do: RawBuffer keeps its form; `find` returns the least index; one pass of EXTRACT and
its loop meet the relation of R92; the overflow policy has two cases; an operation that ends presents a result.
-/

namespace Sys2Proof.Machine

/-! ### Runs -/

@[simp] theorem andThen_next {σ τ : Type} (s : σ) (k : σ → Host.Outcome τ Fault Refusal) :
    andThen (.next s) k = k s := rfl
@[simp] theorem andThen_refused {σ τ : Type} (r : Refusal) (k : σ → Host.Outcome τ Fault Refusal) :
    andThen (.refused r) k = .refused r := rfl

theorem andThen_eq_next {σ τ : Type} {o : Host.Outcome σ Fault Refusal} {k : σ → Host.Outcome τ Fault Refusal} {t : τ} :
    andThen o k = .next t ↔ ∃ s, o = .next s ∧ k s = .next t := by
  cases o <;> simp [andThen]

theorem andThen_assoc {σ τ υ : Type} (o : Host.Outcome σ Fault Refusal) (k : σ → Host.Outcome τ Fault Refusal)
    (l : τ → Host.Outcome υ Fault Refusal) : andThen (andThen o k) l = andThen o fun s => andThen (k s) l := by
  cases o <;> rfl

theorem runProgram_append (a b : List Instr) (s : State) :
    runProgram (a ++ b) s =
      andThen (runProgram a s) fun r => andThen (runProgram b r.2) fun q => .next (r.1 ++ q.1, q.2) := by
  induction a generalizing s with
  | nil =>
    simp only [List.nil_append, runProgram, andThen_next]
    cases runProgram b s <;> rfl
  | cons i a ih =>
    simp only [List.cons_append, runProgram, andThen_assoc, ih, andThen_next]

/-! ### RawBuffer -/

namespace Memory

theorem wf_iff (cap : Option Nat) (m : Memory) : wf cap m = true ↔ ∀ n, cap = some n → m.length ≤ n := by
  cases cap with
  | none => simp [wf]
  | some n => simp [wf]

@[simp] theorem wf_nil (cap : Option Nat) : wf cap [] = true := by
  cases cap <;> simp [wf]

/-- A buffer no longer than a well-formed one is well formed: every operation that shortens keeps the form. -/
theorem wf_of_length_le {cap : Option Nat} {m m' : Memory} (h : wf cap m = true) (hl : m'.length ≤ m.length) :
    wf cap m' = true := by
  rw [wf_iff] at h ⊢
  exact fun n hn => le_trans hl (h n hn)

theorem wf_dropPrefix {cap : Option Nat} {m : Memory} (n : Nat) (h : wf cap m = true) :
    wf cap (dropPrefix m n) = true :=
  wf_of_length_le h (by simp [dropPrefix])

theorem wf_last {cap : Option Nat} {m : Memory} (n : Nat) (h : wf cap m = true) : wf cap (last m n) = true :=
  wf_of_length_le h (by simp [last])

theorem length_last {m : Memory} {n : Nat} (h : n ≤ m.length) : (last m n).length = n := by
  simp only [last, List.length_drop]
  omega

theorem dropPrefix_suffix (m : Memory) (n : Nat) : dropPrefix m n <:+ m := List.drop_suffix n m

theorem last_suffix (m : Memory) (n : Nat) : last m n <:+ m := List.drop_suffix _ m

end Memory

/-! ### The search -/

theorem pairAt_iff (s : List Byte) (p : Byte × Byte) (i : Nat) :
    pairAt s p i = true ↔ s[i]? = some p.1 ∧ s[i + 1]? = some p.2 := by
  simp only [pairAt, Memory.read?, beq_iff_eq]
  constructor
  · intro h
    split at h
    · rename_i hl
      have h0 : i < s.length := by omega
      have h1 : i + 1 < s.length := by omega
      have hs : slice s i (i + 2) = [s[i], s[i + 1]] := by
        simp only [slice, Nat.add_sub_cancel_left]
        rw [List.drop_eq_getElem_cons h0, List.take_succ_cons, List.drop_eq_getElem_cons h1, List.take_succ_cons,
          List.take_zero]
      rw [hs] at h
      simp only [Option.some.injEq, List.cons.injEq, and_true] at h
      simp [h0, h1, h.1, h.2]
    · simp at h
  · rintro ⟨h0, h1⟩
    obtain ⟨l0, e0⟩ := List.getElem?_eq_some_iff.mp h0
    obtain ⟨l1, e1⟩ := List.getElem?_eq_some_iff.mp h1
    rw [if_pos (by omega)]
    simp only [slice, Nat.add_sub_cancel_left]
    rw [List.drop_eq_getElem_cons l0, List.take_succ_cons, List.drop_eq_getElem_cons l1, List.take_succ_cons,
      List.take_zero, e0, e1]

theorem pairAt_cons_succ (a : Byte) (s : List Byte) (p : Byte × Byte) (i : Nat) :
    pairAt (a :: s) p (i + 1) = pairAt s p i := by
  rw [Bool.eq_iff_iff, pairAt_iff, pairAt_iff]
  simp

/-- `findFirst` returns the least index of the pair. -/
theorem findFirst_eq_some (p : Byte × Byte) (s : List Byte) (i : Nat) :
    findFirst p s = some i ↔ pairAt s p i = true ∧ ∀ j, j < i → pairAt s p j = false := by
  induction s generalizing i with
  | nil => simp [findFirst, pairAt_iff]
  | cons a rest ih =>
    simp only [findFirst]
    split
    · rename_i h
      constructor
      · intro hi
        cases hi
        exact ⟨h, fun j hj => absurd hj (Nat.not_lt_zero j)⟩
      · rintro ⟨_, hj⟩
        cases i with
        | zero => rfl
        | succ i => simp [hj 0 (Nat.succ_pos i)] at h
    · rename_i h
      cases i with
      | zero => simp [h]
      | succ i =>
        simp only [Option.map_eq_some_iff, Nat.add_right_cancel_iff, exists_eq_right, ih, pairAt_cons_succ]
        refine and_congr_right fun _ => ⟨fun hj j hlt => ?_, fun hj j hlt => ?_⟩
        · cases j with
          | zero => simpa using h
          | succ j => rw [pairAt_cons_succ]; exact hj j (by omega)
        · have := hj (j + 1) (by omega)
          rwa [pairAt_cons_succ] at this

theorem findFirst_eq_none (p : Byte × Byte) (s : List Byte) :
    findFirst p s = none ↔ ∀ j, pairAt s p j = false := by
  induction s with
  | nil =>
    simp only [findFirst, true_iff]
    intro j
    rw [Bool.eq_false_iff, ne_eq, pairAt_iff]
    simp
  | cons a rest ih =>
    simp only [findFirst]
    split
    · rename_i h
      simpa using ⟨0, h⟩
    · rename_i h
      simp only [Option.map_eq_none_iff, ih]
      constructor
      · intro hj j
        cases j with
        | zero => simpa using h
        | succ j => rw [pairAt_cons_succ]; exact hj j
      · intro hj j
        have := hj (j + 1)
        rwa [pairAt_cons_succ] at this

theorem pairAt_drop (s : List Byte) (p : Byte × Byte) (k i : Nat) : pairAt (s.drop k) p i = pairAt s p (k + i) := by
  rw [Bool.eq_iff_iff, pairAt_iff, pairAt_iff]
  simp [Nat.add_assoc]

/-- `find` is the least index at or after `k` (R15). -/
theorem find_eq_some_iff (s : List Byte) (p : Byte × Byte) (k i : Nat) :
    find s p k = some i ↔ IsLeastPair s p k i := by
  simp only [find, Option.map_eq_some_iff, findFirst_eq_some, pairAt_drop, IsLeastPair]
  constructor
  · rintro ⟨j, ⟨hj, hlt⟩, rfl⟩
    rw [pairAt_iff] at hj
    rw [Nat.add_comm j k]
    refine ⟨by omega, hj.1, hj.2, fun l hkl hl => ?_⟩
    have := hlt (l - k) (by omega)
    rw [show k + (l - k) = l by omega, Bool.eq_false_iff, ne_eq, pairAt_iff] at this
    exact this
  · rintro ⟨hk, h0, h1, hlt⟩
    refine ⟨i - k, ⟨?_, fun j hj => ?_⟩, by omega⟩
    · rw [show k + (i - k) = i by omega, pairAt_iff]
      exact ⟨h0, h1⟩
    · rw [Bool.eq_false_iff, ne_eq, pairAt_iff]
      exact hlt (k + j) (by omega) (by omega)

/-- `find` is NONE exactly when the pair stands nowhere at or after `k` (R15). -/
theorem find_eq_none_iff (s : List Byte) (p : Byte × Byte) (k : Nat) : find s p k = none ↔ NoPair s p k := by
  simp only [find, Option.map_eq_none_iff, findFirst_eq_none, pairAt_drop, NoPair]
  constructor
  · intro h j hj
    have := h (j - k)
    rw [show k + (j - k) = j by omega, Bool.eq_false_iff, ne_eq, pairAt_iff] at this
    exact this
  · intro h j
    rw [Bool.eq_false_iff, ne_eq, pairAt_iff]
    exact h (k + j) (by omega)

/-- The least index of a pair is one index. -/
theorem IsLeastPair.unique {b : List Byte} {p : Byte × Byte} {k i j : Nat} (h : IsLeastPair b p k i)
    (h' : IsLeastPair b p k j) : i = j := by
  rw [← find_eq_some_iff] at h h'
  exact Option.some.inj (h.symm.trans h')

/-! ### EXTRACT's pass and loop -/

/-- A pass finds no frame exactly in cases A and B of R92. -/
theorem nextFrame_eq_none_iff (skip : Nat) (b : Memory) : nextFrame skip b = none ↔ NoCompleteFrame skip b := by
  simp only [nextFrame, NoCompleteFrame]
  cases hs : find b startMarker 0 with
  | none =>
    rw [find_eq_none_iff] at hs
    simp [hs]
  | some s =>
    have hs' := (find_eq_some_iff b startMarker 0 s).mp hs
    have hno : ¬ NoPair b startMarker 0 := fun h => h s (Nat.zero_le s) ⟨hs'.2.1, hs'.2.2.1⟩
    have huniq : ∀ s', IsLeastPair b startMarker 0 s' → s' = s := fun s' h => by
      have := (find_eq_some_iff b startMarker 0 s').mpr h
      rw [hs] at this
      exact (Option.some.inj this).symm
    cases he : find b endMarker (s + skip) with
    | none =>
      simp only [he]
      rw [find_eq_none_iff] at he
      exact ⟨fun _ => .inr ⟨s, hs', he⟩, fun _ => trivial⟩
    | some e =>
      have he' := (find_eq_some_iff b endMarker (s + skip) e).mp he
      refine ⟨fun h => by simp [he] at h, ?_⟩
      rintro (h | ⟨s', h, h'⟩)
      · exact absurd h hno
      · obtain rfl := huniq s' h
        exact absurd ⟨he'.2.1, he'.2.2.1⟩ (h' e he'.1)

/-- A pass that finds a frame cuts from the first start marker to the first end marker after it (R92). -/
theorem nextFrame_eq_some_iff (skip : Nat) (b : Memory) (f : Frame) (rest : Memory) :
    nextFrame skip b = some (f, rest) ↔
      ∃ s e, IsLeastPair b startMarker 0 s ∧ IsLeastPair b endMarker (s + skip) e
        ∧ f = slice b s (e + 2) ∧ rest = b.drop (e + 2) := by
  simp only [nextFrame]
  constructor
  · intro h
    split at h
    · simp at h
    · rename_i s hs
      split at h
      · simp at h
      · rename_i e he
        simp only [Option.some.injEq, Prod.mk.injEq] at h
        exact ⟨s, e, (find_eq_some_iff ..).mp hs, (find_eq_some_iff ..).mp he, h.1.symm, h.2.symm⟩
  · rintro ⟨s, e, hs, he, rfl, rfl⟩
    rw [← find_eq_some_iff] at hs he
    simp [hs, he, Memory.dropPrefix]

/-- A pass shortens the buffer (R97). -/
theorem nextFrame_shorter {skip : Nat} {b rest : Memory} {f : Frame} (h : nextFrame skip b = some (f, rest)) :
    rest.length < b.length := by
  obtain ⟨s, e, -, he, -, rfl⟩ := (nextFrame_eq_some_iff ..).mp h
  obtain ⟨hl, -⟩ := List.getElem?_eq_some_iff.mp he.2.1
  simp only [List.length_drop]
  omega

theorem extracts_extractLoop (skip fuel : Nat) (b : Memory) (h : b.length ≤ fuel) :
    Extracts skip b (extractLoop skip fuel b).1 (extractLoop skip fuel b).2 := by
  induction fuel generalizing b with
  | zero =>
    obtain rfl : b = [] := List.length_eq_zero_iff.mp (Nat.le_zero.mp h)
    exact .stop [] (.inl fun j _ => by simp)
  | succ fuel ih =>
    simp only [extractLoop]
    cases hn : nextFrame skip b with
    | none => exact .stop b ((nextFrame_eq_none_iff ..).mp hn)
    | some fr =>
      obtain ⟨f, rest⟩ := fr
      have hlt := nextFrame_shorter hn
      obtain ⟨s, e, hs, he, rfl, rfl⟩ := (nextFrame_eq_some_iff ..).mp hn
      exact .cut b s e _ _ hs he (ih _ (by omega))

/-- The loop of EXTRACT meets the relation of R92. -/
theorem extracts_extractFrames (skip : Nat) (b : Memory) :
    Extracts skip b (extractFrames skip b).1 (extractFrames skip b).2 :=
  extracts_extractLoop skip b.length b le_rfl

/-- What the loop leaves is a suffix of what it was given (R13). -/
theorem Extracts.suffix {skip : Nat} {b rem : List Byte} {fs : List Frame} (h : Extracts skip b fs rem) : rem <:+ b := by
  induction h with
  | stop b h => exact List.suffix_rfl
  | cut b s e fs rem hs he hr ih => exact ih.trans (List.drop_suffix _ _)

/-! ### The overflow policy -/

theorem overflowPolicy_of_le {s : State} (h : s.buf.length ≤ s.cfg.maxBuf) : overflowPolicy s = s := by
  simp [overflowPolicy, Nat.not_lt.mpr h]

theorem overflowPolicy_of_lt {s : State} (h : s.cfg.maxBuf < s.buf.length) :
    overflowPolicy s = (s.setBuf (Memory.last s.buf s.cfg.tailKeep)).setOvf (bumpOvf s.cfg s.ovfCount) := by
  simp [overflowPolicy, h]

@[simp] theorem overflowPolicy_cfg (s : State) : (overflowPolicy s).cfg = s.cfg := by
  unfold overflowPolicy; split <;> rfl

@[simp] theorem overflowPolicy_pending (s : State) : (overflowPolicy s).pending = s.pending := by
  unfold overflowPolicy; split <;> rfl

@[simp] theorem overflowPolicy_out (s : State) : (overflowPolicy s).out = s.out := by
  unfold overflowPolicy; split <;> rfl

theorem overflowPolicy_setOut (s : State) (o : Output) :
    overflowPolicy (s.setOut o) = (overflowPolicy s).setOut o := by
  by_cases h : s.cfg.maxBuf < s.buf.length
  · rw [overflowPolicy_of_lt h, overflowPolicy_of_lt (s := s.setOut o) h]
    rfl
  · rw [overflowPolicy_of_le (not_lt.mp h), overflowPolicy_of_le (s := s.setOut o) (not_lt.mp h)]

theorem overflowPolicy_setPending (s : State) (p : List Request) :
    overflowPolicy (s.setPending p) = (overflowPolicy s).setPending p := by
  by_cases h : s.cfg.maxBuf < s.buf.length
  · rw [overflowPolicy_of_lt h, overflowPolicy_of_lt (s := s.setPending p) h]
    rfl
  · rw [overflowPolicy_of_le (not_lt.mp h), overflowPolicy_of_le (s := s.setPending p) (not_lt.mp h)]

theorem overflowPolicy_buf_suffix (s : State) : (overflowPolicy s).buf <:+ s.buf := by
  unfold overflowPolicy
  split
  · exact Memory.last_suffix _ _
  · exact List.suffix_rfl

theorem bumpOvf_le (c : Config) (n : Nat) : bumpOvf c n ≤ c.ovfMax := Nat.min_le_right _ _

/-- The overflow policy never lowers the counter and never passes its limit (R21). -/
theorem overflowPolicy_ovfCount (s : State) (h : s.ovfCount ≤ s.cfg.ovfMax) :
    s.ovfCount ≤ (overflowPolicy s).ovfCount ∧ (overflowPolicy s).ovfCount ≤ s.cfg.ovfMax := by
  unfold overflowPolicy
  split
  · simp only [State.setOvf_ovfCount, bumpOvf]
    omega
  · exact ⟨le_rfl, h⟩

/-- The overflow policy and the result together are the end of EXTRACT as R92 words it. -/
theorem overflowPolicy_setBuf_setOut (s : State) (fs : List Frame) (rem : Memory) :
    (overflowPolicy (s.setBuf rem)).setOut (.frames fs) = afterExtract fs rem s := by
  unfold overflowPolicy afterExtract
  by_cases h : s.cfg.maxBuf < rem.length
  · rw [if_pos (by exact h), if_pos h]
    rfl
  · rw [if_neg (by exact h), if_neg h]
    rfl

@[simp] theorem afterExtract_cfg (s : State) (fs : List Frame) (rem : Memory) : (afterExtract fs rem s).cfg = s.cfg := by
  unfold afterExtract
  split <;> rfl

/-- BufferOverflow (R150) is the case in which EXTRACT truncates. -/
theorem bufferOverflow_eq_false_iff (s : State) :
    bufferOverflow s = false ↔ (extractFrames s.cfg.endScanSkip s.buf).2.length ≤ s.cfg.maxBuf := by
  simp [bufferOverflow]

/-! ### Ends of an operation -/

@[simp] theorem finish_eq_next {o : Output} {s t : State} : finish o s = .next t ↔ s.setOut o = t := by
  simp [finish]

/-- `appendBytes` answers a next state within the capacity, and only there. -/
theorem appendBytes_eq_next {bs : List Byte} {s t : State} :
    appendBytes bs s = .next t ↔
      Memory.wf s.cfg.bufPhysCap (s.buf ++ bs) = true ∧ (s.setBuf (s.buf ++ bs)).setOut .none = t := by
  unfold appendBytes
  split <;> simp_all [Memory.append]

theorem appendBytes_of_wf {bs : List Byte} {s : State} (h : Memory.wf s.cfg.bufPhysCap (s.buf ++ bs) = true) :
    appendBytes bs s = .next ((s.setBuf (s.buf ++ bs)).setOut .none) := appendBytes_eq_next.mpr ⟨h, rfl⟩

theorem appendBytes_of_not_wf {bs : List Byte} {s : State}
    (h : Memory.wf s.cfg.bufPhysCap (s.buf ++ bs) = false) : appendBytes bs s = .refused .capacityExceeded := by
  simp [appendBytes, Memory.append, h]

end Sys2Proof.Machine
end

