-- ==== Sys2Proof/Laws/Word.lean ====
section
/-!
SUPPORT. The lemmas of the word arithmetic and of the codes: a 16-bit value and its two bytes, the bytes of a number, the
recognised codes of ports and packets.
-/

namespace Sys2Proof

theorem hiByte_toNat (v : U16) : (hiByte v).toNat = v.toNat / 256 := by
  have h := v.isLt
  simp only [hiByte, BitVec.extractLsb'_toNat, Nat.shiftRight_eq_div_pow]
  omega

theorem loByte_toNat (v : U16) : (loByte v).toNat = v.toNat % 256 := by
  simp [loByte]

theorem u16_toNat (hi lo : Byte) : (u16 hi lo).toNat = hi.toNat * 256 + lo.toNat := by
  have h := lo.isLt
  simp only [u16, BitVec.toNat_append, Nat.shiftLeft_eq]
  rw [← Nat.shiftLeft_eq, ← Nat.shiftLeft_add_eq_or_of_lt h, Nat.shiftLeft_eq]

@[simp] theorem u16_hiByte_loByte (v : U16) : u16 (hiByte v) (loByte v) = v := by
  apply BitVec.eq_of_toNat_eq
  rw [u16_toNat, hiByte_toNat, loByte_toNat]
  omega

@[simp] theorem hiByte_u16 (hi lo : Byte) : hiByte (u16 hi lo) = hi := by
  apply BitVec.eq_of_toNat_eq
  have h := lo.isLt
  rw [hiByte_toNat, u16_toNat]
  omega

@[simp] theorem loByte_u16 (hi lo : Byte) : loByte (u16 hi lo) = lo := by
  apply BitVec.eq_of_toNat_eq
  have h := lo.isLt
  rw [loByte_toNat, u16_toNat]
  omega

@[simp] theorem length_bytesOfNat (n w : Nat) : (bytesOfNat n w).length = n := by
  induction n with
  | zero => rfl
  | succ n ih => simp [bytesOfNat, ih]

@[simp] theorem channelOfPort_code (c : Channel) : channelOfPort c.code = .known c := by
  cases c <;> rfl

@[simp] theorem methodOfPort_letter (m : Method) : methodOfPort m.letter = .known m := by
  cases m <;> rfl

theorem channelOfPort_port (ch : ChannelId) (h : ch.wf = true) : channelOfPort ch.port = ch := by
  cases ch with
  | known c => exact channelOfPort_code c
  | unrecognised b =>
    simp only [ChannelId.wf, channelCodeUnrecognised, decide_eq_true_eq] at h
    obtain ⟨h1, h2, h3⟩ := h
    rw [ChannelId.port, channelOfPort, if_neg h1, if_neg h2, if_neg h3]

theorem methodOfPort_port (m : MethodId) (h : m.wf = true) : methodOfPort m.port = m := by
  cases m with
  | known m => exact methodOfPort_letter m
  | unrecognised b =>
    simp only [MethodId.wf, methodCodeUnrecognised, decide_eq_true_eq] at h
    obtain ⟨h1, h2, h3⟩ := h
    rw [MethodId.port, methodOfPort, if_neg h1, if_neg h2, if_neg h3]

theorem valueOfPorts_ports (v : CmdValue) : valueOfPorts v.portOk v.portValue = v := by
  cases v <;> rfl

@[simp] theorem ChanGroup.length_bytes (g : ChanGroup) : g.bytes.length = 9 := rfl

@[simp] theorem length_packetBytes (cc mc : Byte) (v : U16) : (packetBytes cc mc v).length = 10 := rfl

@[simp] theorem length_frame13Bytes (g : ChanGroup) : (frame13Bytes g).length = 13 := rfl

@[simp] theorem length_frame23Bytes (g1 : ChanGroup) (x : Byte) (g2 : ChanGroup) :
    (frame23Bytes g1 x g2).length = 23 := rfl

@[simp] theorem length_frame33Bytes (g1 : ChanGroup) (x : Byte) (g2 : ChanGroup) (y : Byte) (g3 : ChanGroup) :
    (frame33Bytes g1 x g2 y g3).length = 33 := rfl

end Sys2Proof
end

