-- ==== Sys2Proof/Laws/Exec.lean ====
section
/-!
SUPPORT. What each instruction and each step can do: the shape of every next state, one lemma per kind of instruction, and the
cases of a step.
-/

namespace Sys2Proof.Machine

/-- ENCODE and the rows that act as it present their result, packet or error, and do nothing else (R16, R130). -/
theorem encodeOperands_eq (ch : ChannelId) (m : MethodId) (v : CmdValue) (s : State) :
    encodeOperands ch m v s = .next (s.setOut (.encoded (encodeCommand s.cfg ch m v))) := by
  unfold encodeOperands
  cases encodeCommand s.cfg ch m v <;> rfl

/-- The instructions that write no state variable present a result and do nothing else. -/
theorem exec_of_not_mayWriteBuf {i : Instr} {s t : State} (hi : mayWriteBuf i = false) (h : exec i s = .next t) :
    ∃ o, t = s.setOut o := by
  have hf : ∀ o, finish o s = .next t → ∃ o, t = s.setOut o := fun o ho => ⟨o, (finish_eq_next.mp ho).symm⟩
  have he : ∀ ch m v, encodeOperands ch m v s = .next t → ∃ o, t = s.setOut o := by
    intro ch m v ho
    rw [encodeOperands_eq] at ho
    exact hf _ ho
  cases i with
  | nop => exact hf _ h
  | append bs => simp [mayWriteBuf] at hi
  | extract => simp [mayWriteBuf] at hi
  | status => exact hf _ h
  | decode f ts => exact hf _ h
  | encode ch m v => exact he _ _ _ h
  | reservedOp6 => simp [exec, execReservedOp6] at h
  | reservedOp7 => simp [exec, execReservedOp7] at h
  | reset => simp [mayWriteBuf] at hi
  | markerStart => simp [mayWriteBuf] at hi
  | markerEnd => simp [mayWriteBuf] at hi
  | cmd cc mc v => exact he _ _ _ h
  | cmdI cc v => exact he _ _ _ h
  | cmdR cc v => exact he _ _ _ h
  | cmdP cc v => exact he _ _ _ h
  | tlmFrame33 g1 x g2 y g3 ts => exact hf _ h
  | tlmFrame13 g1 ts => exact hf _ h
  | tlmFrame23 g1 x g2 ts => exact hf _ h
  | modeCurrent k regs ts => exact hf _ h
  | modeResistance k regs ts => exact hf _ h
  | modePower k regs ts => exact hf _ h
  | modeNone m k regs ts => exact hf _ h
  | errOk c m n => exact hf _ h
  | errInvalidChannel => exact hf _ h
  | errInvalidMethod => exact hf _ h
  | errInvalidValue => exact hf _ h

/-- The instructions that append bytes do so through the one shared operation. -/
theorem exec_append (bs : List Byte) (s : State) : exec (.append bs) s = appendBytes bs s := rfl
theorem exec_markerStart (s : State) : exec .markerStart s = appendBytes [0x3C, 0x3A] s := rfl
theorem exec_markerEnd (s : State) : exec .markerEnd s = appendBytes [0x3A, 0x3E] s := rfl

theorem exec_extract (s : State) : exec .extract s =
    .next ((overflowPolicy (s.setBuf (extractFrames s.cfg.endScanSkip s.buf).2)).setOut
      (.frames (extractFrames s.cfg.endScanSkip s.buf).1)) := rfl

theorem exec_reset (s : State) : exec .reset s = .next (((s.setBuf []).setOvf 0).setOut .none) := rfl

/-- Everything an instruction that answers a next state can do. -/
theorem exec_cases {i : Instr} {s t : State} (h : exec i s = .next t) :
    (mayWriteBuf i = false ∧ ∃ o, t = s.setOut o)
      ∨ (i = .extract ∧ t = (overflowPolicy (s.setBuf (extractFrames s.cfg.endScanSkip s.buf).2)).setOut
          (.frames (extractFrames s.cfg.endScanSkip s.buf).1))
      ∨ (i = .reset ∧ t = ((s.setBuf []).setOvf 0).setOut .none)
      ∨ ((i = .append (appended i) ∨ i = .markerStart ∨ i = .markerEnd)
          ∧ Memory.wf s.cfg.bufPhysCap (s.buf ++ appended i) = true
          ∧ t = (s.setBuf (s.buf ++ appended i)).setOut .none) := by
  cases hi : mayWriteBuf i with
  | false => exact .inl ⟨rfl, exec_of_not_mayWriteBuf hi h⟩
  | true =>
    cases i <;> simp [mayWriteBuf] at hi
    case append bs =>
      rw [exec_append, appendBytes_eq_next] at h
      exact .inr (.inr (.inr ⟨.inl rfl, h.1, h.2.symm⟩))
    case extract =>
      rw [exec_extract] at h
      cases h
      exact .inr (.inl ⟨rfl, rfl⟩)
    case reset =>
      rw [exec_reset] at h
      cases h
      exact .inr (.inr (.inl ⟨rfl, rfl⟩))
    case markerStart =>
      rw [exec_markerStart, appendBytes_eq_next] at h
      exact .inr (.inr (.inr ⟨.inr (.inl rfl), h.1, h.2.symm⟩))
    case markerEnd =>
      rw [exec_markerEnd, appendBytes_eq_next] at h
      exact .inr (.inr (.inr ⟨.inr (.inr rfl), h.1, h.2.symm⟩))

/-- A run of an instruction that answers a next state. -/
theorem runProgram_cons {i : Instr} {rest : List Instr} {s t : State} (h : exec i s = .next t) :
    runProgram (i :: rest) s = andThen (runProgram rest t) fun r => .next (t.out :: r.1, r.2) := by
  simp [runProgram, h]

/-- A FEED within the capacity (R80): the frames cut out of the buffer and the new bytes, then the overflow policy. -/
theorem runProgram_feed {bs : List Byte} {s : State} (h : Memory.wf s.cfg.bufPhysCap (s.buf ++ bs) = true) :
    runProgram (feed bs) s =
      .next ([.none, .frames (extractFrames s.cfg.endScanSkip (s.buf ++ bs)).1],
        (overflowPolicy (s.setBuf (extractFrames s.cfg.endScanSkip (s.buf ++ bs)).2)).setOut
          (.frames (extractFrames s.cfg.endScanSkip (s.buf ++ bs)).1)) := by
  rw [feed, runProgram_cons ((exec_append bs s).trans (appendBytes_of_wf h)), runProgram_cons (exec_extract _)]
  simp [runProgram, State.setOut_setBuf, overflowPolicy_setOut]

/-- A step that answers a next state is idle, or runs the oldest request. -/
theorem step_cases {s t : State} (h : step s = .next t) :
    (s.pending = [] ∧ t = s.dropResult)
      ∨ ∃ r rest i, s.pending = r :: rest ∧ decode r = .ok i ∧ i.wf s.cfg = true
          ∧ exec i (s.dropResult.setPending rest) = .next t := by
  unfold step at h
  split at h
  · rename_i hp
    cases h
    exact .inl ⟨hp, rfl⟩
  · rename_i r rest hp
    split at h
    · simp at h
    · rename_i i hd
      split at h
      · rename_i hw
        exact .inr ⟨r, rest, i, hp, hd, hw, h⟩
      · simp at h

end Sys2Proof.Machine
end

