-- ==== Sys2Proof/Laws/Operands.lean ====
section
/-!
SUPPORT. What the operand forms compute: a frame field, a channel, the value field of a command, and the identifiers of the
codes on the wire.
-/

namespace Sys2Proof.Machine

/-! ### Frame fields and channels -/

theorem frameRead8_toNat (f : Frame) (a : Nat) : (frameRead8 f a).toNat = field1 f a := by
  unfold frameRead8 field1 byteNat
  split <;> rfl

theorem frameRead16_toNat (f : Frame) (a : Nat) : (frameRead16 f a).toNat = field2 f a := by
  unfold frameRead16 field2 byteNat
  split
  · rw [u16_toNat]
  · rfl

theorem frameRead16_of_lt {f : Frame} {a : Nat} (h : f.length < a + 2) : frameRead16 f a = 0 := if_neg (by omega)

theorem frameRead8_of_lt {f : Frame} {a : Nat} (h : f.length < a + 1) : frameRead8 f a = 0 := if_neg (by omega)

/-- Channel `k` of a Reading comes from the fields of channel `k`. -/
theorem readingOf_ch (scale : Nat) (f : Frame) (ts : Nat) (k : Channel) :
    Reading.ch (readingOf scale f ts) k = channelReading scale (modeByte f k) (rawRegs f k) := by
  cases k <;> rfl

theorem byte_eq_ofNat_iff (m : Byte) {n : Nat} (h : n < 256) : m = BitVec.ofNat 8 n ↔ m.toNat = n := by
  rw [← BitVec.toNat_inj, BitVec.toNat_ofNat, Nat.mod_eq_of_lt h]

/-- A channel is derived first and overridden after (R119), as R110 words it in numbers. -/
theorem channelReading_is (scale : Nat) (m : Byte) (r : RawRegs) :
    ChannelIs scale r.v.toNat r.i.toNat r.g.toNat m.toNat (channelReading scale m r) := by
  have h1 := byte_eq_ofNat_iff m (n := 1) (by omega)
  have h2 := byte_eq_ofNat_iff m (n := 2) (by omega)
  have h3 := byte_eq_ofNat_iff m (n := 3) (by omega)
  have hi : r.i = 0 ↔ r.i.toNat = 0 := by
    rw [← BitVec.toNat_inj]
    rfl
  have hres : derivedResistance r.v r.i
      = if r.i.toNat ≠ 0 then (r.v.toNat : Rat) / (r.i.toNat : Rat) else 0 := by
    unfold derivedResistance
    by_cases h : r.i = 0
    · rw [if_pos h, if_neg (by simpa using hi.mp h)]
    · rw [if_neg h, if_pos (by simpa using fun h' => h (hi.mpr h')), Rat.mkRat_eq_div]
      simp
  unfold channelReading override ChannelIs derive
  simp only [← hres]
  by_cases a1 : m = 1
  · rw [if_pos a1, if_pos (h1.mp a1)]
    subst a1
    exact ⟨rfl, rfl, rfl, rfl⟩
  · have b1 : ¬ m.toNat = 1 := fun h => a1 (h1.mpr h)
    by_cases a2 : m = 2
    · simp only [a2]
      exact ⟨rfl, rfl, rfl, rfl⟩
    · have b2 : ¬ m.toNat = 2 := fun h => a2 (h2.mpr h)
      by_cases a3 : m = 3
      · simp only [a3]
        exact ⟨rfl, rfl, rfl, rfl⟩
      · have b3 : ¬ m.toNat = 3 := fun h => a3 (h3.mpr h)
        rw [if_neg a1, if_neg a2, if_neg a3, if_neg b1, if_neg b2, if_neg b3]
        exact ⟨rfl, rfl, rfl, rfl⟩

/-- Zero registers and mode byte 0 give the all-zero channel (R120). -/
theorem channelReading_zero (scale : Nat) : channelReading scale 0 ⟨0, 0, 0⟩ = zeroChannel := by
  simp [channelReading, override, derive, derivedResistance, derivedPower, zeroChannel]

/-- A power within its range fits the port (R76, R117). -/
theorem lt_two_pow_powerBits {scale n : Nat} (h : n ≤ u16Max * u16Max * scale) : n < 2 ^ powerBits scale :=
  lt_of_le_of_lt h (by unfold powerBits; exact Nat.lt_log2_self)

/-! ### The value field -/

theorem u16Max_cast : ((u16Max : Nat) : Rat) = 65535 := by norm_num [u16Max]

theorem clamp_range (q : Rat) : 0 ≤ clamp q 0 (u16Max : Rat) ∧ clamp q 0 (u16Max : Rat) ≤ 65535 := by
  unfold clamp
  rw [u16Max_cast]
  split
  · norm_num
  · split
    · norm_num
    · constructor <;> linarith

theorem trunc_of_nonneg {q : Rat} (h : 0 ≤ q) : trunc q = ⌊q⌋ := by
  unfold trunc
  rw [Int.tdiv_eq_ediv_of_nonneg (Rat.num_nonneg.mpr h), Rat.floor_def']

theorem trunc_of_neg {q : Rat} (h : q < 0) : trunc q ≤ 0 := by
  unfold trunc
  have hn := Rat.num_neg.mpr h
  rw [show q.num = -(-q.num) by omega, Int.neg_tdiv]
  have := Int.tdiv_nonneg (show 0 ≤ -q.num by omega) (show (0 : Int) ≤ q.den by omega)
  omega

/-- The value field holds the clamped, truncated number: nothing is lost in its 16 bits (R73, R133). -/
theorem valueField_toNat (q : Rat) : ((valueField q).toNat : Int) = trunc (clamp q 0 (u16Max : Rat)) := by
  obtain ⟨h1, h2⟩ := clamp_range q
  have ht := trunc_of_nonneg h1
  have h3 := Int.floor_nonneg.mpr h1
  have h4 := Int.floor_mono h2
  rw [show ⌊(65535 : Rat)⌋ = 65535 from Int.floor_ofNat 65535] at h4
  unfold valueField
  rw [BitVec.toNat_ofInt]
  omega

/-- A 16-bit value sent as a number arrives as it is. -/
theorem valueField_natCast (n : U16) : valueField (n.toNat : Rat) = n := by
  have h := valueField_toNat (n.toNat : Rat)
  have hn := n.isLt
  have hc : clamp (n.toNat : Rat) 0 (u16Max : Rat) = n.toNat := by
    unfold clamp
    rw [u16Max_cast, if_neg (by simp), if_neg]
    simp only [not_lt]
    exact_mod_cast (by omega : n.toNat ≤ 65535)
  rw [hc, trunc_of_nonneg (by positivity), Int.floor_natCast, Nat.cast_inj] at h
  exact BitVec.eq_of_toNat_eq h

/-! ### Codes -/

@[simp] theorem channelOfCode_code (c : Channel) : channelOfCode c.code = .known c := by
  cases c <;> rfl

@[simp] theorem methodOfCode_code (m : Method) : methodOfCode m.code = .known m := by
  cases m <;> rfl

theorem channelOfCode_of_outside {b : Byte} (h : outsideOneToThree b = true) : channelOfCode b = .unrecognised b := by
  simp only [outsideOneToThree, decide_eq_true_eq] at h
  rw [channelOfCode, if_neg h.1, if_neg h.2.1, if_neg h.2.2]

theorem methodOfCode_of_outside {b : Byte} (h : outsideOneToThree b = true) : methodOfCode b = .unrecognised 0 := by
  simp only [outsideOneToThree, decide_eq_true_eq] at h
  rw [methodOfCode, if_neg h.1, if_neg h.2.1, if_neg h.2.2]

/-- A word that the instance lists denotes what its first entry says. -/
theorem valWord_of_lookup {cfg : Config} {w : Nat} {v : Option Rat} (h : cfg.valRepr.lookup w = some v) : valWord cfg w = v := by
  simp [valWord, h]

/-- A rational that the instance lists is carried by the word of its first entry. -/
theorem resWord_of_lookup {cfg : Config} {q : Rat} {w : Nat} (h : cfg.resRepr.lookup q = some w) : resWord cfg q = w := by
  simp [resWord, h]

/-- ENCODE with recognised identifiers and a number (R130). -/
theorem encodeCommand_known {c : Channel} {m : Method} {v : CmdValue} {q : Rat} {cfg : Config}
    (h : numberOf cfg v = some q) :
    encodeCommand cfg (.known c) (.known m) v = .ok (packetOf c m (valueField q)) := by
  simp [encodeCommand, h]

end Sys2Proof.Machine
end

