-- ==== Sys2Proof/Laws/PerInstr.lean ====
section
/-!
SUPPORT. Statements made per instruction: each is encoded in the format of its row of spec/opcode_table.json (R81).
-/

namespace Sys2Proof.Laws.EncodedFormat

/-- The encoder writes the instruction in the format of its row. -/
def Statement (i : Instr) : Prop := (encode i).format = some i.format

theorem nop : Statement .nop := rfl
theorem append (bs : List Byte) : Statement (.append bs) := rfl
theorem extract : Statement .extract := rfl
theorem status : Statement .status := rfl
theorem decode (f : List Byte) (ts : Nat) : Statement (.decode f ts) := rfl
theorem encode (ch : ChannelId) (m : MethodId) (v : CmdValue) : Statement (.encode ch m v) := rfl
theorem reservedOp6 : Statement .reservedOp6 := rfl
theorem reservedOp7 : Statement .reservedOp7 := rfl
theorem reset : Statement .reset := rfl
theorem markerStart : Statement .markerStart := rfl
theorem markerEnd : Statement .markerEnd := rfl
theorem cmd (cc mc : Byte) (v : U16) : Statement (.cmd cc mc v) := rfl
theorem cmdI (cc : Byte) (v : U16) : Statement (.cmdI cc v) := rfl
theorem cmdR (cc : Byte) (v : U16) : Statement (.cmdR cc v) := rfl
theorem cmdP (cc : Byte) (v : U16) : Statement (.cmdP cc v) := rfl
theorem tlmFrame33 (g1 : ChanGroup) (x : Byte) (g2 : ChanGroup) (y : Byte) (g3 : ChanGroup) (ts : Nat) :
    Statement (.tlmFrame33 g1 x g2 y g3 ts) := rfl
theorem tlmFrame13 (g1 : ChanGroup) (ts : Nat) : Statement (.tlmFrame13 g1 ts) := rfl
theorem tlmFrame23 (g1 : ChanGroup) (x : Byte) (g2 : ChanGroup) (ts : Nat) : Statement (.tlmFrame23 g1 x g2 ts) := rfl
theorem modeCurrent (k : Channel) (r : RawRegs) (ts : Nat) : Statement (.modeCurrent k r ts) := rfl
theorem modeResistance (k : Channel) (r : RawRegs) (ts : Nat) : Statement (.modeResistance k r ts) := rfl
theorem modePower (k : Channel) (r : RawRegs) (ts : Nat) : Statement (.modePower k r ts) := rfl
theorem modeNone (m : Byte) (k : Channel) (r : RawRegs) (ts : Nat) : Statement (.modeNone m k r ts) := rfl
theorem errOk (c : Channel) (m : Method) (n : U16) : Statement (.errOk c m n) := rfl
theorem errInvalidChannel : Statement .errInvalidChannel := rfl
theorem errInvalidMethod : Statement .errInvalidMethod := rfl
theorem errInvalidValue : Statement .errInvalidValue := rfl

end Sys2Proof.Laws.EncodedFormat
end

