-- ==== Sys2Proof/Tests/Slice0.lean ====
section
/-!
SUPPORT. The model's own tests: the WellFormed smoke test, one word written out by hand for every constructor, small vectors of
95_test_vectors.md (their names are in the comments), and, for every obligation with hypotheses, a witness that meets them.
-/

namespace Sys2Proof.Tests

open Sys2Proof.Machine

/-! ### Helpers -/

/-- The defaults but for small MAX_BUF and TAIL_KEEP. -/
def smallCfg (maxBuf tailKeep : Nat) : Config := { Config.defaults with maxBuf := maxBuf, tailKeep := tailKeep }

/-- The defaults but for END_SCAN_SKIP. -/
def skipCfg (n : Nat) : Config := { Config.defaults with endScanSkip := n }

/-- The defaults but for a finite BUF_PHYS_CAP. -/
def capCfg (n : Nat) : Config := { Config.defaults with maxBuf := 4, tailKeep := 2, bufPhysCap := some n }

/-- An instance after reset, with bytes in the buffer. -/
def withBuf (c : Config) (b : List Byte) : State := { State.reset with cfg := c, buf := b }

/-- The result, the buffer and the counter of an outcome; `none` for a stop. -/
def seen (o : Host.Outcome State Fault Refusal) : Option (Output × List Byte × Nat) :=
  match o with
  | .next s => some (s.out, s.buf, s.ovfCount)
  | .fault _ => none
  | .refused _ => none

/-- The reason of a refusal. -/
def refusal (o : Host.Outcome State Fault Refusal) : Option Refusal :=
  match o with
  | .next _ => none
  | .fault _ => none
  | .refused r => some r

/-- The three channels of the Reading an outcome presents. -/
def channels (o : Host.Outcome State Fault Refusal) : Option (List ChannelReading) :=
  match seen o with
  | some (.reading r, _, _) => some [r.ch1, r.ch2, r.ch3]
  | _ => none

/-- A channel as 95_test_vectors.md writes it; resistance as numerator and denominator. -/
def chan (voltage current : U16) (num : Int) (den power : Nat) : ChannelReading := ⟨voltage, current, mkRat num den, power⟩

/-- The command value of 95_test_vectors.md. -/
def num (n : Int) (d : Nat) : CmdValue := .number (mkRat n d)

/-- The bytes of the packet an outcome presents. -/
def packet (o : Host.Outcome State Fault Refusal) : Option (List Byte) :=
  match seen o with
  | some (.encoded (.ok p), [], 0) => some p.toList
  | _ => none

/-- The error value an outcome presents, the state being unchanged. -/
def errorOf (o : Host.Outcome State Fault Refusal) : Option EncError :=
  match seen o with
  | some (.encoded (.error e), [], 0) => some e
  | _ => none

def reset : State := State.reset

/-! ### WellFormed refuses an ill-formed term for each check -/

theorem test_wf_decode_ts : Instr.wf Config.defaults (.decode [] (2 ^ 64)) = false := by decide
theorem test_wf_decode_ts_max : Instr.wf Config.defaults (.decode [] (2 ^ 64 - 1)) = true := by decide
theorem test_wf_tlm33_ts :
    Instr.wf Config.defaults (.tlmFrame33 zeroGroup 0 zeroGroup 0 zeroGroup (2 ^ 64)) = false := by decide
theorem test_wf_tlm23_ts : Instr.wf Config.defaults (.tlmFrame23 zeroGroup 0 zeroGroup (2 ^ 64)) = false := by decide
theorem test_wf_tlm13_ts : Instr.wf Config.defaults (.tlmFrame13 zeroGroup (2 ^ 64)) = false := by decide
theorem test_wf_modeCurrent_ts : Instr.wf Config.defaults (.modeCurrent .ch1 ⟨0, 0, 0⟩ (2 ^ 64)) = false := by decide
theorem test_wf_modeResistance_ts : Instr.wf Config.defaults (.modeResistance .ch1 ⟨0, 0, 0⟩ (2 ^ 64)) = false := by
  decide
theorem test_wf_modePower_ts : Instr.wf Config.defaults (.modePower .ch1 ⟨0, 0, 0⟩ (2 ^ 64)) = false := by decide
theorem test_wf_modeNone_ts : Instr.wf Config.defaults (.modeNone 0 .ch1 ⟨0, 0, 0⟩ (2 ^ 64)) = false := by decide
theorem test_wf_modeNone_code : Instr.wf Config.defaults (.modeNone 3 .ch1 ⟨0, 0, 0⟩ 0) = false := by decide
theorem test_wf_channel : Instr.wf Config.defaults (.encode (.unrecognised 3) (.known .i) .nan) = false := by decide
theorem test_wf_method : Instr.wf Config.defaults (.encode (.known .ch1) (.unrecognised 0x50) .nan) = false := by
  decide
theorem test_wf_cmd_code : Instr.wf Config.defaults (.cmd 1 2 0) = false := by decide

/-! ### One word for every constructor -/

-- R75: op codes 0 to 7; the operands stand on ports the word has no bits for, R76.
theorem test_word_nop : decodeTableWord 3 0b000 = some .nop := by decide
theorem test_word_append : decodeTableWord 3 0b001 = some (.append []) := by decide
theorem test_word_extract : decodeTableWord 3 0b010 = some .extract := by decide
theorem test_word_status : decodeTableWord 3 0b011 = some .status := by decide
theorem test_word_decode : decodeTableWord 3 0b100 = some (.decode [] 0) := by decide
theorem test_word_encode : decodeTableWord 3 0b101 = some (.encode (.unrecognised 0) (.unrecognised 0) .nan) := by decide
theorem test_word_reservedOp6 : decodeTableWord 3 0b110 = some .reservedOp6 := by decide
theorem test_word_reservedOp7 : decodeTableWord 3 0b111 = some .reservedOp7 := by decide
-- R170: rst = 1.
theorem test_word_reset : decodeTableWord 1 0b1 = some .reset := by decide
-- R60.
theorem test_word_markerStart : decodeTableWord 16 0b0011110000111010 = some .markerStart := by decide
theorem test_word_markerEnd : decodeTableWord 16 0b0011101000111110 = some .markerEnd := by decide
-- R70: 3C 3A cc 3A mc 3A hi lo 3A 3E.
theorem test_word_cmd : decodeTableWord 80 0x3C3A023A043A012C3A3E = some (.cmd 2 4 0x012C) := by decide
theorem test_word_cmdI : decodeTableWord 80 0x3C3A013A013A00FF3A3E = some (.cmdI 1 255) := by decide
theorem test_word_cmdR : decodeTableWord 80 0x3C3A023A023A012C3A3E = some (.cmdR 2 300) := by decide
theorem test_word_cmdP : decodeTableWord 80 0x3C3A033A033A30393A3E = some (.cmdP 3 12345) := by decide
-- R62, R65: vectors Y13, Y23 and Y33 of 95_test_vectors.md.
theorem test_word_tlmFrame13 :
    decodeTableWord 104 0x3C3A000A3A00033A0100143A3E = some (.tlmFrame13 ⟨10, 0x3A, 3, 0x3A, 1, 20⟩ 0) := by decide
theorem test_word_tlmFrame23 :
    decodeTableWord 184 0x3C3A04B03A01F43A0000003A03843A012C3A03010E3A3E
      = some (.tlmFrame23 ⟨1200, 0x3A, 500, 0x3A, 0, 0⟩ 0x3A ⟨900, 0x3A, 300, 0x3A, 3, 270⟩ 0) := by decide
theorem test_word_tlmFrame33 :
    decodeTableWord 264 0x3C3A04B03A01F43A0101E03A0CE43A00003A0203E83A5DC03A007D3A030BB83A3E
      = some (.tlmFrame33 ⟨1200, 0x3A, 500, 0x3A, 1, 480⟩ 0x3A ⟨3300, 0x3A, 0, 0x3A, 2, 1000⟩ 0x3A
          ⟨24000, 0x3A, 125, 0x3A, 3, 3000⟩ 0) := by decide
-- R66: the mode byte.
theorem test_word_modeCurrent : decode (.modeByte 0b00000001 .ch2 ⟨1, 2, 3⟩ 4) = .ok (.modeCurrent .ch2 ⟨1, 2, 3⟩ 4) := rfl
theorem test_word_modeResistance :
    decode (.modeByte 0b00000010 .ch2 ⟨1, 2, 3⟩ 4) = .ok (.modeResistance .ch2 ⟨1, 2, 3⟩ 4) := rfl
theorem test_word_modePower : decode (.modeByte 0b00000011 .ch2 ⟨1, 2, 3⟩ 4) = .ok (.modePower .ch2 ⟨1, 2, 3⟩ 4) := rfl
theorem test_word_modeNone : decodeTableWord 8 0x31 = some (.modeNone 0x31 .ch1 ⟨0, 0, 0⟩ 0) := by decide
-- R151: the two bits of enc_err.
theorem test_word_errOk : decodeTableWord 2 0b00 = some (.errOk .ch1 .i 0) := by decide
theorem test_word_errInvalidChannel : decodeTableWord 2 0b01 = some .errInvalidChannel := by decide
theorem test_word_errInvalidMethod : decodeTableWord 2 0b10 = some .errInvalidMethod := by decide
theorem test_word_errInvalidValue : decodeTableWord 2 0b11 = some .errInvalidValue := by decide
-- R75 to R77 with operands: program P3 step 1, and rst over an op (R170).
theorem test_ports_encode :
    decode (.ports { op := 5, cmdChannel := 0x02, cmdMethod := 0x52, cmdValueOk := 1, cmdValue := .rational 300 })
      = .ok (.encode (.known .ch2) (.known .r) (.number 300)) := rfl
theorem test_ports_rst : decode (.ports { rst := 1, op := 6, inBytes := [1] }) = .ok .reset := rfl
-- R60, R70, R61: what is no encoding is refused by name.
theorem test_no_marker : decode (.wire [0x3A, 0x3C] 0) = .error .notAMarker := rfl
theorem test_no_packet : decodeTableWord 80 0x3C3A023A023A012C3A3F = none := by decide
theorem test_no_frame : decodeTableWord 104 0x3C3B000A3A00033A0100143A3E = none := by decide
theorem test_no_width : decodeTableWord 7 1 = none := by decide

/-! ### The step runs the word that is issued next -/

theorem test_step_runs_word : seen (step (reset.withFetchWord 16 0x3C3A)) = some (.none, [0x3C, 0x3A], 0) := by decide
theorem test_step_idle : step reset = .next reset := rfl
-- R24: a result is not kept beyond the step that handed it over.
theorem test_step_drops_result :
    seen (step { withBuf Config.defaults [1] with out := .frames [[2]] }) = some (.none, [1], 0) := by decide
theorem test_step_undecodable : refusal (step (reset.withFetchWord 16 0)) = some (.undecodable .notAMarker) := by decide
theorem test_step_ill_formed :
    refusal (step (reset.setPending [.ports { op := 4, decTs := 2 ^ 64 }])) = some .illFormed := by decide
theorem test_memory_wf_at_reset : Memory.wf reset.cfg.bufPhysCap reset.buf = true := rfl

/-! ### Frame Extractor: vectors of T11, T14, T15, T20 -/

-- X22.
theorem test_nop : seen (exec .nop (withBuf (skipCfg 1) [1])) = some (.none, [1], 0) := by decide
-- R90; R91 with BUF_PHYS_CAP = 5 = MAX_BUF + 1.
theorem test_append : seen (exec (.append [3, 4, 5]) (withBuf (capCfg 5) [1, 2])) = some (.none, [1, 2, 3, 4, 5], 0) := by
  decide
theorem test_append_beyond : refusal (exec (.append [3, 4, 5, 6]) (withBuf (capCfg 5) [1, 2])) = some .capacityExceeded := by
  decide
-- X4, first EXTRACT.
theorem test_extract_garbage :
    seen (exec .extract (withBuf (skipCfg 1)
        [0xAA, 0xBB, 0x3C, 0x3A, 0x01, 0x02, 0x3A, 0x3E, 0xCC, 0x3C, 0x3A, 0x03]))
      = some (.frames [[0x3C, 0x3A, 0x01, 0x02, 0x3A, 0x3E]], [0xCC, 0x3C, 0x3A, 0x03], 0) := by decide
-- X21, first EXTRACT: MAX_BUF = 6, TAIL_KEEP = 3.
theorem test_extract_overflow :
    seen (exec .extract (withBuf (smallCfg 6 3) [1, 2, 3, 4, 5, 6, 7, 8])) = some (.frames [], [6, 7, 8], 1) := by decide
-- T20: one pass of the loop under the two readings of END_SCAN_SKIP.
theorem test_nextFrame_skip :
    nextFrame 1 [0x3C, 0x3A, 0x3E, 0x00, 0x3A, 0x3E] = some ([0x3C, 0x3A, 0x3E], [0x00, 0x3A, 0x3E])
      ∧ nextFrame 2 [0x3C, 0x3A, 0x3E, 0x00, 0x3A, 0x3E] = some ([0x3C, 0x3A, 0x3E, 0x00, 0x3A, 0x3E], []) := by decide
-- X19: the end marker is the pair at index 4.
theorem test_find_pair : find [0x3C, 0x3A, 0x01, 0x3A, 0x3A, 0x3E] endMarker 1 = some 4 := by decide
-- R100.
theorem test_status : seen (exec .status (withBuf (skipCfg 1) [1, 2, 3])) = some (.status 3 0, [1, 2, 3], 0) := by decide
-- W1, W2.
theorem test_reset :
    seen (exec .reset { withBuf (skipCfg 1) [0x3C, 0x3A, 0x01] with ovfCount := 1 }) = some (.none, [], 0) := by decide
-- R75, U8.
theorem test_reserved6 : refusal (exec .reservedOp6 reset) = some (.reservedOp 6) := by decide
theorem test_reserved7 : refusal (exec .reservedOp7 reset) = some (.reservedOp 7) := by decide
-- R60: scenario 4 (S4) begins with a marker that arrives in two parts.
theorem test_markerStart : seen (exec .markerStart (withBuf (skipCfg 1) [7])) = some (.none, [7, 0x3C, 0x3A], 0) := by decide
theorem test_markerEnd : seen (exec .markerEnd (withBuf (skipCfg 1) [7])) = some (.none, [7, 0x3A, 0x3E], 0) := by decide

/-! ### Reading Decoder: vectors of T1, T12 -/

-- S1a: the literal 11 bytes.
theorem test_decode_s1a :
    channels (exec (.decode [0x3C, 0x3A, 0x00, 0x0A, 0x00, 0x03, 0x01, 0x00, 0x14, 0x3A, 0x3E] 9) reset)
      = some [chan 10 769 10 769 7690000, zeroChannel, zeroChannel] := by decide
-- Y11: mode 1, G1 is the end marker.
theorem test_decode_y11 :
    channels (exec (.decode [0x3C, 0x3A, 0x00, 0x0A, 0x3A, 0x00, 0x03, 0x3A, 0x01, 0x3A, 0x3E] 9) reset)
      = some [chan 10 14910 10 3 30000, zeroChannel, zeroChannel] := by decide
-- Y13.
theorem test_tlmFrame13 :
    channels (exec (.tlmFrame13 ⟨10, 0x3A, 3, 0x3A, 1, 20⟩ 9) reset)
      = some [chan 10 20 10 3 30000, zeroChannel, zeroChannel] := by decide
-- Y23.
theorem test_tlmFrame23 :
    channels (exec (.tlmFrame23 ⟨1200, 0x3A, 500, 0x3A, 0, 0⟩ 0x3A ⟨900, 0x3A, 300, 0x3A, 3, 270⟩ 9) reset)
      = some [chan 1200 500 12 5 600000000, chan 900 300 3 1 270, zeroChannel] := by decide
-- Y33.
theorem test_tlmFrame33 :
    channels (exec (.tlmFrame33 ⟨1200, 0x3A, 500, 0x3A, 1, 480⟩ 0x3A ⟨3300, 0x3A, 0, 0x3A, 2, 1000⟩ 0x3A
        ⟨24000, 0x3A, 125, 0x3A, 3, 3000⟩ 9) reset)
      = some [chan 1200 480 12 5 600000000, chan 3300 0 1000 1 0, chan 24000 125 192 1 3000] := by decide
-- Ym1, Ym2, Ym3, Ym4 in channel 2 or 3.
theorem test_modeCurrent :
    channels (exec (.modeCurrent .ch2 ⟨1000, 250, 77⟩ 9) reset)
      = some [zeroChannel, chan 1000 77 4 1 250000000, zeroChannel] := by decide
theorem test_modeResistance :
    channels (exec (.modeResistance .ch1 ⟨1000, 250, 77⟩ 9) reset)
      = some [chan 1000 250 77 1 250000000, zeroChannel, zeroChannel] := by decide
theorem test_modePower :
    channels (exec (.modePower .ch3 ⟨1000, 250, 77⟩ 9) reset)
      = some [zeroChannel, zeroChannel, chan 1000 250 4 1 77] := by decide
theorem test_modeNone :
    channels (exec (.modeNone 0x31 .ch1 ⟨1000, 250, 77⟩ 9) reset)
      = some [chan 1000 250 4 1 250000000, zeroChannel, zeroChannel] := by decide

-- R76 with R117: the port is 42 bits wide at scale 1000, 44 at 4000, and loses no bit of the largest power (Ymax).
theorem test_powerBits : powerBits 1000 = 42 ∧ powerBits 4000 = 44 ∧ powerBits 1 = 32 := by decide
theorem test_rdPower :
    (rdPower 4000 (readingOf 4000 [0x3C, 0x3A, 0xFF, 0xFF, 0x3A, 0xFF, 0xFF, 0x3A, 0x3E] 0) .ch1).toNat
      = 17179344900000 := by decide

/-! ### Command Encoder: vectors of T13 -/

-- S3.
theorem test_encode_s3 :
    packet (exec (.encode (.known .ch2) (.known .r) (num 300 1)) reset)
      = some [0x3C, 0x3A, 0x02, 0x3A, 0x02, 0x3A, 0x01, 0x2C, 0x3A, 0x3E] := by decide
-- Z8: -1/2; Z12: 65534.999; Z11: 65535.9.
theorem test_valueField_low : valueField (mkRat (-1) 2) = 0 := by decide
theorem test_valueField_high : valueField (mkRat 655359 10) = 0xFFFF := by decide
theorem test_valueField_below : valueField (mkRat 65534999 1000) = 0xFFFE := by decide
-- Z17, Z18.
theorem test_encodeCommand_z17 :
    encodeCommand Config.defaults (.unrecognised 4) (.unrecognised 0x58) .nan = .error .invalidChannel := rfl
theorem test_encode_z18 : errorOf (exec (.encode (.known .ch1) (.unrecognised 0x58) .nan) reset) = some .invalidMethod := by
  decide
-- T3: enc_pkt = 0x3C3A023A023A012C3A3E.
theorem test_packetWord : packetWord (packetOf .ch2 .r 300) = 0x3C3A023A023A012C3A3E#80 := by decide
-- The packets of R70 by their rows; a code outside 1..3 is no identifier (R71, R72).
theorem test_cmd_channel : errorOf (exec (.cmd 4 4 5) reset) = some .invalidChannel := by decide
theorem test_cmd_method : errorOf (exec (.cmd 3 0 5) reset) = some .invalidMethod := by decide
theorem test_cmdI :
    packet (exec (.cmdI 1 255) reset) = some [0x3C, 0x3A, 0x01, 0x3A, 0x01, 0x3A, 0x00, 0xFF, 0x3A, 0x3E] := by decide
theorem test_cmdR :
    packet (exec (.cmdR 2 300) reset) = some [0x3C, 0x3A, 0x02, 0x3A, 0x02, 0x3A, 0x01, 0x2C, 0x3A, 0x3E] := by decide
theorem test_cmdP :
    packet (exec (.cmdP 3 65535) reset) = some [0x3C, 0x3A, 0x03, 0x3A, 0x03, 0x3A, 0xFF, 0xFF, 0x3A, 0x3E] := by decide
-- R151.
theorem test_errOk :
    packet (exec (.errOk .ch1 .p 256) reset) = some [0x3C, 0x3A, 0x01, 0x3A, 0x03, 0x3A, 0x01, 0x00, 0x3A, 0x3E] := by decide
theorem test_errInvalidChannel : errorOf (exec .errInvalidChannel reset) = some .invalidChannel := by decide
theorem test_errInvalidMethod : errorOf (exec .errInvalidMethod reset) = some .invalidMethod := by decide
theorem test_errInvalidValue : errorOf (exec .errInvalidValue reset) = some .invalidValue := by decide

/-! ### Witnesses: every obligation with hypotheses has a case that meets them, each clause at a boundary -/

/-- A reset machine to which one request is issued. -/
def issued (r : Request) : State := reset.setPending [r]

/-- Two bytes of garbage, the shortest frame under both readings of END_SCAN_SKIP, and one byte more. -/
def oneFrame : List Byte := [0xAA, 0xBB, 0x3C, 0x3A, 0x3A, 0x3E, 0x07]

theorem noCompleteFrame_of_none {skip : Nat} {b : List Byte} (h : nextFrame skip b = none) : NoCompleteFrame skip b :=
  (nextFrame_eq_none_iff skip b).mp h

theorem noPair_of_none {b : List Byte} {p : Byte × Byte} {k : Nat} (h : find b p k = none) : NoPair b p k :=
  (find_eq_none_iff b p k).mp h

theorem witness_StepKeepsInvariant :
    (issued (.ports { op := 2 })).Inv ∧ ∃ t, step (issued (.ports { op := 2 })) = .next t :=
  ⟨⟨by decide, by decide, by decide⟩, _, rfl⟩

theorem witness_StepKeepsParameters :
    ∃ t, step (issued (.ports { op := 1, inBytes := [1] })) = .next t ∧ t.pending = [] := ⟨_, rfl, rfl⟩

theorem witness_StepRunsDecodedInstruction :
    (issued (.ports { op := 4, decTs := 2 ^ 64 - 1 })).pending = [.ports { op := 4, decTs := 2 ^ 64 - 1 }]
      ∧ decode (.ports { op := 4, decTs := 2 ^ 64 - 1 }) = .ok (.decode [] (2 ^ 64 - 1))
      ∧ Instr.wf Config.defaults (.decode [] (2 ^ 64 - 1)) = true := ⟨rfl, rfl, by decide⟩

theorem witness_StepWithoutInstruction_idle : reset.pending = [] := rfl
theorem witness_StepWithoutInstruction_undecodable :
    (issued (.wire [0x3C] 0)).pending = [.wire [0x3C] 0] ∧ decode (.wire [0x3C] 0) = .error .noWireFormat := ⟨rfl, rfl⟩
theorem witness_StepWithoutInstruction_ill_formed :
    decode (.ports { op := 4, decTs := 2 ^ 64 }) = .ok (.decode [] (2 ^ 64))
      ∧ Instr.wf Config.defaults (.decode [] (2 ^ 64)) = false := ⟨rfl, by decide⟩

theorem witness_DecodeOfEncode :
    Instr.wf Config.defaults (.modeNone 4 .ch3 ⟨1, 2, 3⟩ (2 ^ 64 - 1)) = true
      ∧ Instr.wf Config.defaults (.encode (.unrecognised 4) (.unrecognised 0) (.portWord 5)) = true
      ∧ Instr.wf Config.defaults (.cmd 255 0 65535) = true := by decide

theorem witness_EncodeOfDecodedWire : decode (.wire [0x3A, 0x3E] 5) = .ok .markerEnd := rfl

theorem witness_DecodedIsWellFormed :
    decode (.modeByte 0 .ch1 ⟨0, 0, 0⟩ (2 ^ 64 - 1)) = .ok (.modeNone 0 .ch1 ⟨0, 0, 0⟩ (2 ^ 64 - 1))
      ∧ requestTs (.modeByte 0 .ch1 ⟨0, 0, 0⟩ (2 ^ 64 - 1)) < 2 ^ Config.defaults.tsW := ⟨rfl, by decide⟩

theorem witness_ResetEmptiesAndClears : ({ rst := 1, op := 5 } : Ports).rst = 1 := rfl

-- The capacity is just reached.
theorem witness_AppendConcatenates :
    Memory.wf (some 5) ((withBuf (capCfg 5) [1]).buf ++ [2, 3, 4, 5]) = true := by decide

-- The capacity is just reached, and just passed.
theorem witness_MarkerRowsAppendTheirBytes :
    Memory.wf (some 5) ((withBuf (capCfg 5) [1, 2, 3]).buf ++ [0x3C, 0x3A]) = true
      ∧ Memory.wf (some 5) ((withBuf (capCfg 5) [1, 2, 3]).buf ++ [0x3A, 0x3E]) = true
      ∧ Memory.wf (some 5) ((withBuf (capCfg 5) [1, 2, 3, 4]).buf ++ [0x3C, 0x3A]) = false
      ∧ Memory.wf (some 5) ((withBuf (capCfg 5) [1, 2, 3, 4]).buf ++ [0x3A, 0x3E]) = false := by decide

-- One byte beyond the capacity, and exactly at it.
theorem witness_AppendRefusedExactlyBeyondCapacity :
    (withBuf (capCfg 5) [1]).cfg.bufPhysCap = some 5 ∧ reset.cfg.bufPhysCap = none
      ∧ 5 < (withBuf (capCfg 5) [1]).buf.length + [2, 3, 4, 5, 6].length
      ∧ ¬ 5 < (withBuf (capCfg 5) [1]).buf.length + [2, 3, 4, 5].length := by decide

theorem witness_AppendKeepsEveryByte :
    (∃ t, exec (.append [2, 3]) (withBuf (capCfg 5) [1]) = .next t) ∧ (∃ t, exec .markerStart reset = .next t)
      ∧ ∃ t, exec .markerEnd reset = .next t := ⟨⟨_, rfl⟩, ⟨_, rfl⟩, _, rfl⟩

theorem witness_ExtractLoopDetermined : Extracts 1 oneFrame [[0x3C, 0x3A, 0x3A, 0x3E]] [0x07] :=
  extracts_extractFrames 1 oneFrame

theorem witness_ExtractEstablishesBound :
    (withBuf (smallCfg 3 3) oneFrame).cfg.tailKeep ≤ (withBuf (smallCfg 3 3) oneFrame).cfg.maxBuf := by decide

theorem witness_ExtractIdempotent :
    (withBuf (smallCfg 6 3) [1, 2, 3, 4, 5, 6, 7]).cfg.tailKeep ≤ 6
      ∧ ∃ t, exec .extract (withBuf (smallCfg 6 3) [1, 2, 3, 4, 5, 6, 7]) = .next t ∧ t.ovfCount = 1 :=
  ⟨by decide, _, rfl, rfl⟩

-- Exactly MAX_BUF bytes, and one more; a pending start marker (case B) and none (case A).
theorem witness_ExtractWaitsForMoreBytes :
    NoCompleteFrame 1 (withBuf (smallCfg 4 2) [0x07, 0x3C, 0x3A, 0x3A]).buf
      ∧ (withBuf (smallCfg 4 2) [0x07, 0x3C, 0x3A, 0x3A]).buf.length ≤ 4
      ∧ NoCompleteFrame 1 (withBuf (smallCfg 4 2) [0x3A, 0x3E, 0, 0, 0]).buf
      ∧ 4 < (withBuf (smallCfg 4 2) [0x3A, 0x3E, 0, 0, 0]).buf.length :=
  ⟨noCompleteFrame_of_none (by decide), by decide, noCompleteFrame_of_none (by decide), by decide⟩

-- The shortest frame of each reading, END_SCAN_SKIP + 2 bytes long.
theorem witness_ReturnedFramesHaveFrameShape :
    (∃ t, exec .extract (withBuf (skipCfg 1) [0x3C, 0x3A, 0x3E]) = .next t ∧ t.out = .frames [[0x3C, 0x3A, 0x3E]])
      ∧ ∃ t, exec .extract (withBuf (skipCfg 2) [0x3C, 0x3A, 0x3A, 0x3E]) = .next t
        ∧ t.out = .frames [[0x3C, 0x3A, 0x3A, 0x3E]] := ⟨⟨_, rfl, rfl⟩, _, rfl, rfl⟩

theorem witness_FramesAreOrderedDisjointSlices :
    ∃ t, exec .extract (withBuf (skipCfg 1) oneFrame) = .next t ∧ t.out = .frames [[0x3C, 0x3A, 0x3A, 0x3E]]
      ∧ t.buf = [0x07] := ⟨_, rfl, rfl, rfl⟩

-- Two frames in six bytes: the bound is reached.
theorem witness_FrameCountBounded :
    ∃ t, exec .extract (withBuf (skipCfg 1) [0x3C, 0x3A, 0x3E, 0x3C, 0x3A, 0x3E]) = .next t
      ∧ t.out = .frames [[0x3C, 0x3A, 0x3E], [0x3C, 0x3A, 0x3E]] := ⟨_, rfl, rfl⟩

theorem witness_ExtractFrame : ∃ t, exec .extract (withBuf (skipCfg 1) oneFrame) = .next t := ⟨_, rfl⟩

theorem witness_ManyAppendsOneExtract :
    Memory.wf (capCfg 5).bufPhysCap ((withBuf (capCfg 5) [1]).buf ++ [[0x3C], [0x3A, 0x3A], [0x3E]].flatten) = true := by
  decide

-- S4 in small: a frame that arrives in two chunks, no EXTRACT truncating.
theorem witness_ChunkingInvariance :
    NoFeedTruncates [[0x3C], [0x3A, 0x3A, 0x3E]] reset
      ∧ Memory.wf reset.cfg.bufPhysCap (reset.buf ++ [[0x3C], [0x3A, 0x3A, 0x3E]].flatten) = true
      ∧ ∃ os t, runProgram (feedAll [[0x3C], [0x3A, 0x3A, 0x3E]]) reset = .next (os, t)
        ∧ framesOf os = [[0x3C, 0x3A, 0x3A, 0x3E]] ∧ t.ovfCount = reset.ovfCount :=
  ⟨⟨by decide, fun os t h => by cases h; exact ⟨by decide, fun _ _ _ => trivial⟩⟩, by decide, _, _, rfl, by decide, rfl⟩

theorem witness_BufferIsSuffixOfStream :
    (withBuf (skipCfg 1) [1]).buf <:+ [0, 1]
      ∧ ∃ os t, runProgram [.append [2], .reset, .markerStart] (withBuf (skipCfg 1) [1]) = .next (os, t)
        ∧ t.buf = [0x3C, 0x3A] := ⟨by decide, _, _, rfl, rfl⟩

-- A frame of four bytes whose third is no 0x3E.
theorem witness_EndScanSkipsAgree :
    (∀ i : Nat, ¬ (([0x3C, 0x3A, 0x3A, 0x3E] : List Byte)[i]? = some 0x3C
        ∧ ([0x3C, 0x3A, 0x3A, 0x3E] : List Byte)[i + 1]? = some 0x3A
        ∧ ([0x3C, 0x3A, 0x3A, 0x3E] : List Byte)[i + 2]? = some 0x3E))
      ∧ ∃ t, exec .extract (withBuf (skipCfg 1) [0x3C, 0x3A, 0x3A, 0x3E]) = .next t := by
  refine ⟨fun i => ?_, _, rfl⟩
  match i with
  | 0 => decide
  | 1 => decide
  | 2 => decide
  | 3 => decide
  | i + 4 => simp

-- One byte more than MAX_BUF, TAIL_KEEP = MAX_BUF.
theorem witness_MarkerFreeOverflow :
    (withBuf (smallCfg 4 4) []).buf = [] ∧ NoPair [0, 0x3A, 0x3E, 0, 0] startMarker 0
      ∧ (smallCfg 4 4).maxBuf < [0, 0x3A, 0x3E, 0, 0].length ∧ (smallCfg 4 4).tailKeep ≤ (smallCfg 4 4).maxBuf
      ∧ Memory.wf (smallCfg 4 4).bufPhysCap [0, 0x3A, 0x3E, 0, 0] = true :=
  ⟨rfl, noPair_of_none (by decide), by decide, by decide, by decide⟩

-- The last byte and the last pair of a frame of three bytes, and one index further.
theorem witness_FrameReadWholeFieldOrZero :
    2 + 1 ≤ [0x3C, 0x3A, 0x3E].length ∧ [0x3C, 0x3A, 0x3E].length < 3 + 1
      ∧ 1 + 2 ≤ [0x3C, 0x3A, 0x3E].length ∧ [0x3C, 0x3A, 0x3E].length < 2 + 2 := by decide

-- Ydc: positions 4 and 7 changed.
theorem witness_DecodeIgnoresUnreadBytes :
    SameToDecode [0x3C, 0x3A, 0x03, 0xE8, 0x3A, 0x00, 0xFA, 0x3A, 0x01, 0x00, 0x4D, 0x3A, 0x3E]
      [0x3C, 0x3A, 0x03, 0xE8, 0xFF, 0x00, 0xFA, 0x00, 0x01, 0x00, 0x4D, 0x3A, 0x3E] := by
  intro x hx
  simp only [frameFields, channelFields, chanBase, chStride, List.cons_append, List.nil_append, List.mem_cons,
    List.not_mem_nil, or_false] at hx
  rcases hx with rfl | rfl | rfl | rfl | rfl | rfl | rfl | rfl | rfl | rfl | rfl | rfl <;>
    refine ⟨by decide, fun h a h1 h2 => ?_⟩ <;>
    first
      | exact absurd h (by decide)
      | (interval_cases a <;> rfl)

theorem witness_ReadingRanges :
    1 ≤ reset.cfg.powerScale ∧ reset.cfg.powerScale = 1000
      ∧ ∃ t r, exec (.decode [0x3C, 0x3A, 0xFF, 0xFF, 0x3A, 0xFF, 0xFF, 0x3A, 0x3E] 0) reset = .next t
        ∧ t.out = .reading r := ⟨by decide, rfl, _, _, rfl, rfl⟩

-- Channel 1 of 3 bytes, channel 2 of 13, channel 3 of 23: one byte short of the voltage field.
theorem witness_AbsentChannelIsZero :
    ([0x3C, 0x3A, 0x3E] : List Byte).length < chanBase .ch1 + 4
      ∧ (frame13Bytes zeroGroup).length < chanBase .ch2 + 4
      ∧ (frame23Bytes zeroGroup 0 zeroGroup).length < chanBase .ch3 + 4
      ∧ ∃ t r, exec (.decode [0x3C, 0x3A, 0x3E] 0) reset = .next t ∧ t.out = .reading r :=
  ⟨by decide, by decide, by decide, _, _, rfl, rfl⟩

/-- A frame of `n + 4` bytes with both markers. -/
def shortFrame (n : Nat) : List Byte := [0x3C, 0x3A] ++ List.replicate n 0x01 ++ [0x3A, 0x3E]

-- Y4, Y5, Y7 to Y12 in channel 1 and the longest of channel 3; channel 2 comes after channel 1.
theorem witness_ShortFrameFieldsHoldMarkerBytes :
    [0, 1, 3, 4, 5, 6, 7, 8].all (fun n =>
        decide ((shortFrame n)[(shortFrame n).length - 2]? = some 0x3A
          ∧ (shortFrame n)[(shortFrame n).length - 1]? = some 0x3E ∧ (shortFrame n).length = chanBase .ch1 + 4 + n)) = true
      ∧ (shortFrame 28).length = chanBase .ch3 + 12
      ∧ (shortFrame 28)[(shortFrame 28).length - 2]? = some 0x3A
      ∧ (shortFrame 28)[(shortFrame 28).length - 1]? = some 0x3E
      ∧ (shortFrame 8).length ≤ chanBase .ch1 + 12 ∧ chanBase .ch1 < chanBase .ch2 := by decide

theorem witness_ModeRowsOverrideOneField :
    ((0 : Byte) ≠ 1 ∧ (0 : Byte) ≠ 2 ∧ (0 : Byte) ≠ 3) ∧ ((4 : Byte) ≠ 1 ∧ (4 : Byte) ≠ 2 ∧ (4 : Byte) ≠ 3) := by decide

theorem witness_EncodeBuildsPacket :
    numberOf reset.cfg (num (-1) 2) = some (mkRat (-1) 2)
      ∧ numberOf { reset.cfg with valRepr := [(7, some 300)] } (.portWord 7) = some 300 := by decide

theorem witness_EveryPortFormatIsAnInstance : (2 ^ 8 - 1 < 2 ^ 8) ∧ (0 : Rat) ∈ [(1 : Rat), 0] := by decide

-- R134: a listed word, and a listed not-a-number token; R116: a listed rational.
theorem test_valWord_listed :
    valWord { Config.defaults with valRepr := [(7, some 300), (8, none)] } 7 = some 300
      ∧ valWord { Config.defaults with valRepr := [(7, some 300), (8, none)] } 8 = none := by decide
theorem test_resWord_listed :
    rdResistance { Config.defaults with resRepr := [(mkRat 10 3, 99)] }
      (readingOf 1000 [0x3C, 0x3A, 0x00, 0x0A, 0x3A, 0x00, 0x03, 0x3A, 0x3E] 0) .ch1 = 99 := by decide

theorem witness_CommandRowsEncodeThemselves :
    outsideOneToThree 0 = true ∧ outsideOneToThree 4 = true ∧ outsideOneToThree 255 = true := by decide

-- H5 and H7: the neighbours of the hazardous values, and a low byte 0x3A.
theorem witness_PacketLoopback :
    reset.cfg.endScanSkip = 1 ∧ reset.buf = [] ∧ Memory.wf (some 10) (packetOf .ch3 .r 15871).toList = true
      ∧ hiByte 15871 ≠ 0x3E ∧ (15871 : U16) ≠ 0x3A3E ∧ hiByte 16128 ≠ 0x3E ∧ hiByte 58 ≠ 0x3E
      ∧ (58 : U16) ≠ 0x3A3E := by decide

-- H3 at both ends of its range, H4, and the value 0x3E3C under both readings.
theorem witness_PacketEarlyEndMarker :
    (skipCfg 1).endScanSkip = 1 ∧ (skipCfg 2).endScanSkip = 2 ∧ (withBuf (smallCfg 1 0) []).buf = []
      ∧ Memory.wf (some 10) (packetOf .ch1 .i 0x3E00).toList = true
      ∧ hiByte 0x3E00 = 0x3E ∧ (0x3E00 : U16) ≠ 0x3E3C ∧ hiByte 0x3EFF = 0x3E ∧ (0x3EFF : U16) ≠ 0x3E3C
      ∧ hiByte 0x3E3C = 0x3E := by decide

-- What the loop makes of these packets: R138 with R92, and H4 of 95_test_vectors.md.
theorem test_extractFrames_early_end :
    extractFrames 1 (packetOf .ch1 .i 0x3E3C).toList
        = ([[0x3C, 0x3A, 0x01, 0x3A, 0x01, 0x3A, 0x3E], [0x3C, 0x3A, 0x3E]], [])
      ∧ extractFrames 1 (packetOf .ch1 .i 14910).toList
        = ([[0x3C, 0x3A, 0x01, 0x3A, 0x01, 0x3A, 0x3A, 0x3E]], [0x3A, 0x3E]) := by decide

theorem witness_EveryInstructionCompletes :
    (isReserved .status = false ∧ ¬ (Instr.status = .append (appended .status) ∨ Instr.status = .markerStart
        ∨ Instr.status = .markerEnd))
      ∧ (isReserved .markerStart = false ∧ Memory.wf (some 5) ((withBuf (capCfg 5) [1, 2, 3]).buf ++ appended .markerStart) = true)
      ∧ (∀ t, exec .reservedOp6 reset ≠ .next t)
      ∧ ∀ t, exec (.append [4, 5, 6]) (withBuf (capCfg 5) [1, 2, 3]) ≠ .next t := by
  refine ⟨by decide, by decide, fun t h => ?_, fun t h => ?_⟩
  · have := congrArg refusal h
    simp [refusal, exec, execReservedOp6] at this
  · have := congrArg seen h
    have hs : seen (exec (.append [4, 5, 6]) (withBuf (capCfg 5) [1, 2, 3])) = none := by decide
    rw [hs] at this
    simp [seen] at this

theorem witness_OtherInstructionsWriteNoState :
    mayWriteBuf .status = false ∧ ∃ t, exec .status (withBuf (skipCfg 1) [1]) = .next t := ⟨rfl, _, rfl⟩

-- The counter at its limit 1 of a counter of one bit, and below it.
theorem witness_OverflowCounterDiscipline :
    (∃ t, exec .extract { withBuf { smallCfg 1 1 with ovfW := 1 } [1, 2] with ovfCount := 1 } = .next t ∧ t.ovfCount = 1)
      ∧ (∃ t, exec .extract (withBuf { smallCfg 1 1 with ovfW := 1 } [1, 2]) = .next t ∧ t.ovfCount = 1)
      ∧ ∃ t, exec .reset { reset with ovfCount := 2 ^ 32 - 1 } = .next t :=
  ⟨⟨_, rfl, rfl⟩, ⟨_, rfl, rfl⟩, _, rfl⟩

-- A caller that holds a result and has more to issue, and one that does not; a run that ends and one that is refused.
theorem witness_BlockKeepsNoHistory :
    ({ reset with out := .frames [[1]], pending := [.noFormat 7 1] } : State).toBlock = reset.toBlock
      ∧ (∃ os t, runProgram [.append [1], .extract] reset = .next (os, t))
      ∧ runProgram [.reservedOp6] reset = .refused (.reservedOp 6) := ⟨rfl, ⟨_, _, rfl⟩, rfl⟩

theorem witness_DecodeAndEncodeArePure :
    reset.cfg = (withBuf Config.defaults [1]).cfg ∧ (∃ t, exec (.decode [0x3C] 1) reset = .next t)
      ∧ ∃ t, exec (.decode [0x3C] 1) (withBuf Config.defaults [1]) = .next t := ⟨rfl, ⟨_, rfl⟩, _, rfl⟩

theorem witness_LabelRowsAddNoBehaviour :
    isOperation .errInvalidValue = false ∧ isReserved .errInvalidValue = false := by decide

theorem witness_PollReadsEveryFrame :
    ∃ os t, runProgram (feed [0x3C, 0x3A, 0x3A, 0x3E]) reset = .next (os, t)
      ∧ framesOf os = [[0x3C, 0x3A, 0x3A, 0x3E]] := ⟨_, _, rfl, by decide⟩

end Sys2Proof.Tests
end

section
/-!
PROOFS. The scope of the model: the invariant and the parameters along a step, the one outcome of EXTRACT's loop and the frame
of EXTRACT, which instructions complete, and the tables that carry a port format.
-/

namespace Sys2Proof.Machine

/-! ### The invariant -/

/-- Neither the result nor the queue is under the invariant. -/
theorem State.Inv.setOut {s : State} (h : s.Inv) (o : Output) : (s.setOut o).Inv := ⟨h.cfg, h.buf, h.ovf⟩

theorem State.Inv.setPending {s : State} (h : s.Inv) (p : List Request) : (s.setPending p).Inv := ⟨h.cfg, h.buf, h.ovf⟩

theorem State.Inv.setBuf {s : State} (h : s.Inv) {b : Memory} (hb : Memory.wf s.cfg.bufPhysCap b = true) :
    (s.setBuf b).Inv := ⟨h.cfg, hb, h.ovf⟩

theorem State.Inv.setOvf {s : State} (h : s.Inv) {n : Nat} (hn : n ≤ s.cfg.ovfMax) : (s.setOvf n).Inv :=
  ⟨h.cfg, h.buf, hn⟩

/-- EXTRACT's loop only shortens the buffer, so what it leaves is within the capacity too. -/
theorem wf_extractFrames {cap : Option Nat} {b : Memory} (skip : Nat) (h : Memory.wf cap b = true) :
    Memory.wf cap (extractFrames skip b).2 = true :=
  Memory.wf_of_length_le h (extracts_extractFrames skip b).suffix.length_le

theorem overflowPolicy_keeps_inv {s : State} (h : s.Inv) : (overflowPolicy s).Inv where
  cfg := by rw [overflowPolicy_cfg]; exact h.cfg
  buf := by rw [overflowPolicy_cfg]; exact Memory.wf_of_length_le h.buf (overflowPolicy_buf_suffix s).length_le
  ovf := by rw [overflowPolicy_cfg]; exact (overflowPolicy_ovfCount s h.ovf).2

theorem exec_keeps_inv {i : Instr} {s t : State} (hs : s.Inv) (h : exec i s = .next t) : t.Inv := by
  obtain ⟨-, o, rfl⟩ | ⟨-, rfl⟩ | ⟨-, rfl⟩ | ⟨-, hcap, rfl⟩ := exec_cases h
  · exact hs.setOut o
  · exact (overflowPolicy_keeps_inv (hs.setBuf (wf_extractFrames _ hs.buf))).setOut _
  · exact ((hs.setBuf (Memory.wf_nil _)).setOvf (Nat.zero_le _)).setOut _
  · exact (hs.setBuf hcap).setOut _

/-- Settles O2: the defaults of R9 meet their constraints, and the empty buffer and the zero counter are within any bound. -/
theorem resetMeetsInvariant : Obligations.ResetMeetsInvariant where
  cfg := by decide
  buf := Memory.wf_nil _
  ovf := Nat.zero_le _

/-- Settles O3: an idle step drops the result, any other is `exec`, which keeps the invariant. -/
theorem stepKeepsInvariant : Obligations.StepKeepsInvariant := by
  intro s t hs h
  obtain ⟨-, rfl⟩ | ⟨r, rest, i, -, -, -, hexec⟩ := step_cases h
  · exact hs.setOut _
  · exact exec_keeps_inv ((hs.setOut _).setPending rest) hexec

/-! ### Parameters and queue -/

/-- No instruction writes a parameter (R10) or the queue. -/
theorem exec_keeps_cfg_pending {i : Instr} {s t : State} (h : exec i s = .next t) :
    t.cfg = s.cfg ∧ t.pending = s.pending := by
  obtain ⟨-, o, rfl⟩ | ⟨-, rfl⟩ | ⟨-, rfl⟩ | ⟨-, -, rfl⟩ := exec_cases h <;> simp

/-- Settles O4: the step takes the oldest request off the queue, and `exec` leaves what is left of it. -/
theorem stepKeepsParameters : Obligations.StepKeepsParameters := by
  intro s t h
  obtain ⟨hp, rfl⟩ | ⟨r, rest, i, hp, -, -, hexec⟩ := step_cases h
  · simp [hp]
  · simpa [hp] using exec_keeps_cfg_pending hexec

/-! ### EXTRACT -/

/-- Where the loop stops there is no frame to cut. -/
theorem NoCompleteFrame.not_cut {skip s e : Nat} {b : List Byte} (h : NoCompleteFrame skip b)
    (hs : IsLeastPair b startMarker 0 s) : ¬ IsLeastPair b endMarker (s + skip) e := by
  intro he
  have hcut := (nextFrame_eq_some_iff skip b _ _).mpr ⟨s, e, hs, he, rfl, rfl⟩
  simp [(nextFrame_eq_none_iff skip b).mpr h] at hcut

/-- Settles O18, by induction on the loop: stopping and cutting exclude each other, and the two markers of a cut are unique. -/
theorem extractLoopDetermined : Obligations.ExtractLoopDetermined := by
  intro skip b fs fs' rem rem' h
  induction h generalizing fs' rem' with
  | stop b hstop =>
    rintro (_ | ⟨_, s, e, fs', _, hs, he, -⟩)
    · exact ⟨rfl, rfl⟩
    · exact absurd he (hstop.not_cut hs)
  | cut b s e fs rem hs he _ ih =>
    rintro (⟨_, hstop⟩ | ⟨_, s', e', fs', _, hs', he', hrest⟩)
    · exact absurd he (hstop.not_cut hs)
    · obtain rfl := hs.unique hs'
      obtain rfl := he.unique he'
      obtain ⟨rfl, rfl⟩ := ih _ _ hrest
      exact ⟨rfl, rfl⟩

theorem overflowPolicy_ovfCount_cases (s : State) :
    (overflowPolicy s).ovfCount = s.ovfCount ∨ (overflowPolicy s).ovfCount = bumpOvf s.cfg s.ovfCount := by
  obtain h | h := Nat.lt_or_ge s.cfg.maxBuf s.buf.length
  · exact .inr (by rw [overflowPolicy_of_lt h]; rfl)
  · exact .inl (by rw [overflowPolicy_of_le h])

/-- Settles O25: the loop and then the overflow policy each leave a suffix, and only the policy counts. -/
theorem extractFrame : Obligations.ExtractFrame := by
  intro s t h
  obtain ⟨hcfg, hpending⟩ := exec_keeps_cfg_pending h
  rw [exec_extract] at h
  cases h
  refine ⟨hcfg, hpending, ?_, overflowPolicy_ovfCount_cases (s.setBuf _)⟩
  exact (overflowPolicy_buf_suffix _).trans (extracts_extractFrames _ s.buf).suffix

/-! ### Which instructions complete -/

theorem exec_of_appends {i : Instr} (hi : i = .append (appended i) ∨ i = .markerStart ∨ i = .markerEnd) (s : State) :
    exec i s = appendBytes (appended i) s := by
  obtain hi | rfl | rfl := hi
  · rw [hi]; rfl
  · exact exec_markerStart s
  · exact exec_markerEnd s

/-- A reserved op code is refused in every state (R75). -/
theorem exec_of_isReserved {i : Instr} (hi : isReserved i = true) (s : State) :
    ∃ code, exec i s = .refused (.reservedOp code) := by
  cases i <;> simp [isReserved] at hi
  case reservedOp6 => exact ⟨6, rfl⟩
  case reservedOp7 => exact ⟨7, rfl⟩

/-- EXTRACT, RESET and the instructions that write no state complete in every state (R98, R123, R174). -/
theorem exec_completes {i : Instr} (hr : isReserved i = false)
    (ha : ¬ (i = .append (appended i) ∨ i = .markerStart ∨ i = .markerEnd)) (s : State) : ∃ t, exec i s = .next t := by
  cases i with
  | append | markerStart | markerEnd => simp [appended] at ha
  | reservedOp6 | reservedOp7 => simp [isReserved] at hr
  | extract => exact ⟨_, exec_extract s⟩
  | reset => exact ⟨_, exec_reset s⟩
  | encode | cmd | cmdI | cmdR | cmdP => exact ⟨_, encodeOperands_eq _ _ _ s⟩
  | nop | status | decode | tlmFrame33 | tlmFrame13 | tlmFrame23 | modeCurrent | modeResistance | modePower | modeNone
  | errOk | errInvalidChannel | errInvalidMethod | errInvalidValue => exact ⟨_, rfl⟩

/-- The three ends of an instruction: a next state, a reserved op code (R75), an append beyond the capacity (R91). -/
theorem exec_outcomes (i : Instr) (s : State) :
    (∃ t, exec i s = .next t)
      ∨ ((∃ code, exec i s = .refused (.reservedOp code)) ∧ isReserved i = true)
      ∨ (exec i s = .refused .capacityExceeded ∧ (i = .append (appended i) ∨ i = .markerStart ∨ i = .markerEnd)
          ∧ Memory.wf s.cfg.bufPhysCap (s.buf ++ appended i) = false) := by
  by_cases ha : i = .append (appended i) ∨ i = .markerStart ∨ i = .markerEnd
  · rw [exec_of_appends ha]
    cases hcap : Memory.wf s.cfg.bufPhysCap (s.buf ++ appended i) with
    | true => exact .inl ⟨_, appendBytes_of_wf hcap⟩
    | false => exact .inr (.inr ⟨appendBytes_of_not_wf hcap, ha, rfl⟩)
  · cases hr : isReserved i with
    | true => exact .inr (.inl ⟨exec_of_isReserved hr s, rfl⟩)
    | false => exact .inl (exec_completes hr ha s)

/-- Settles O52: of the three ends of an instruction the hypotheses of each part leave the ones it names. -/
theorem everyInstructionCompletes : Obligations.EveryInstructionCompletes := by
  intro i s
  obtain ⟨t, ht⟩ | hreserved | ⟨hrefused, ha, hcap⟩ := exec_outcomes i s
  · exact ⟨fun _ _ => ⟨t, ht⟩, fun hno => absurd ht (hno t)⟩
  · exact ⟨fun hr => by simp [hreserved.2] at hr, fun _ => .inl hreserved⟩
  · exact ⟨fun _ hwithin => by simp [hwithin ha] at hcap, fun _ => .inr ⟨hrefused, ha, hcap⟩⟩

/-! ### Port formats -/

/-- Settles O60: the graph of the function on the words of the port, or on the listed rationals, is the table asked for. -/
theorem everyPortFormatIsAnInstance : Obligations.EveryPortFormatIsAnInstance := by
  constructor
  · intro c f width
    exact ⟨(List.range (2 ^ width)).map fun w => (w, f w), fun w hw =>
      valWord_of_lookup (List.lookup_graph f (List.mem_range.mpr hw))⟩
  · intro c f qs
    exact ⟨qs.map fun q => (q, f q), fun q hq => resWord_of_lookup (List.lookup_graph f hq)⟩

/-! ### Frame fields and error rows -/

/-- Settles O34, from the value of a field as R14 words it. -/
theorem frameReadWholeFieldOrZero : Obligations.FrameReadWholeFieldOrZero := by
  intro f a
  rw [frameRead8_toNat, frameRead16_toNat]
  exact ⟨fun h => if_pos h, fun h => if_neg (Nat.not_le.mpr h), fun h => if_pos h, fun h => if_neg (Nat.not_le.mpr h)⟩

/-- Settles O49: each error row ends in `raise` or in `returnOk`, which only present a result. -/
theorem errorRowsPresentTheirResult : Obligations.ErrorRowsPresentTheirResult :=
  fun _ => ⟨rfl, rfl, rfl, fun _ _ _ => rfl⟩

end Sys2Proof.Machine
end

section
/-!
PROOFS. The state of the block: what reset leaves and what a step runs, which instruction may write what (APPEND's bytes, the
counter, nothing), what EXTRACT returns and leaves, the buffer as a suffix of the stream, and the caller's record, which no
instruction reads.
-/

namespace Sys2Proof.Machine

/-! ### Reset and the step -/

/-- Settles O1: the fields of `State.reset` are written out. -/
theorem resetStateValues : Obligations.ResetStateValues := ⟨rfl, rfl, rfl, rfl, rfl⟩

theorem step_of_wf {s : State} {r : Request} {rest : List Request} {i : Instr} (hp : s.pending = r :: rest)
    (hd : decode r = .ok i) (hw : i.wf s.cfg = true) : step s = exec i (s.dropResult.setPending rest) := by
  simp [step, hp, hd, hw]

/-- Settles O5: the fetch takes the request off the queue and drops the earlier result. -/
theorem stepRunsDecodedInstruction : Obligations.StepRunsDecodedInstruction :=
  fun _ _ _ _ hp hd hw => step_of_wf hp hd hw

/-! ### What an instruction writes -/

/-- Settles O53: such an instruction only presents a result. -/
theorem otherInstructionsWriteNoState : Obligations.OtherInstructionsWriteNoState := by
  intro i s t hi h
  obtain ⟨o, rfl⟩ := exec_of_not_mayWriteBuf hi h
  simp

/-- Settles O16: the next state holds the old bytes followed by the new ones, so an index tells which of the two it is in. -/
theorem appendKeepsEveryByte : Obligations.AppendKeepsEveryByte := by
  intro i s t hi h
  rw [exec_of_appends hi, appendBytes_eq_next] at h
  obtain ⟨-, rfl⟩ := h
  refine ⟨fun a ha => ?_, fun j => ?_, rfl, rfl, rfl⟩
  · exact List.getElem?_append_left ha
  · exact (List.getElem?_append_right (Nat.le_add_right _ j)).trans (by rw [Nat.add_sub_cancel_left])

/-- An instruction that is no EXTRACT and no RESET leaves the counter (R21). -/
theorem exec_keeps_ovfCount {i : Instr} {s t : State} (he : i ≠ .extract) (hr : i ≠ .reset) (h : exec i s = .next t) :
    t.ovfCount = s.ovfCount := by
  obtain ⟨-, o, rfl⟩ | ⟨rfl, -⟩ | ⟨rfl, -⟩ | ⟨-, -, rfl⟩ := exec_cases h
  · rfl
  · exact absurd rfl he
  · exact absurd rfl hr
  · rfl

theorem overflowPolicy_ovfCount_le_succ (s : State) : (overflowPolicy s).ovfCount ≤ s.ovfCount + 1 := by
  obtain h | h := overflowPolicy_ovfCount_cases s <;> rw [h]
  · exact Nat.le_succ _
  · exact Nat.min_le_left _ _

/-- Settles O54: EXTRACT's counter is that of the overflow policy, RESET's is 0, and no other instruction writes it. -/
theorem overflowCounterDiscipline : Obligations.OverflowCounterDiscipline := by
  intro i s t hovf h
  refine ⟨fun he hr => exec_keeps_ovfCount he hr h, ?_, ?_⟩
  · rintro rfl
    rw [exec_extract] at h
    cases h
    obtain ⟨hlow, hhigh⟩ := overflowPolicy_ovfCount (s.setBuf (extractFrames s.cfg.endScanSkip s.buf).2) hovf
    exact ⟨hlow, overflowPolicy_ovfCount_le_succ (s.setBuf _), hhigh⟩
  · rintro rfl
    rw [exec_reset] at h
    cases h
    rfl

/-! ### What EXTRACT leaves -/

/-- A pair that stands nowhere from `k` on stands nowhere in what is left, from the index that falls at or after `k`. -/
theorem NoPair.drop {b : List Byte} {p : Byte × Byte} {k k' n : Nat} (h : NoPair b p k) (hk : k ≤ n + k') :
    NoPair (b.drop n) p k' := by
  intro j hj
  have := h (n + j) (by omega)
  simpa [Nat.add_assoc] using this

theorem noPair_or_exists_isLeastPair (b : List Byte) (p : Byte × Byte) (k : Nat) :
    NoPair b p k ∨ ∃ i, IsLeastPair b p k i := by
  cases h : find b p k with
  | none => exact .inl ((find_eq_none_iff b p k).mp h)
  | some i => exact .inr ⟨i, (find_eq_some_iff b p k i).mp h⟩

/-- The least index of a pair is at most the index of any occurrence, one in a suffix counted from the whole. -/
theorem IsLeastPair.le_add_of_drop {b : List Byte} {p : Byte × Byte} {n s s' : Nat} (h : IsLeastPair b p 0 s)
    (h' : IsLeastPair (b.drop n) p 0 s') : s ≤ n + s' := by
  obtain ⟨-, -, -, hleast⟩ := h
  obtain ⟨-, h0, h1, -⟩ := h'
  rw [List.getElem?_drop] at h0 h1
  by_contra hlt
  exact hleast (n + s') (Nat.zero_le _) (by omega) ⟨h0, h1⟩

/-- Dropping the oldest bytes completes no frame: a start marker of the rest stands no earlier than the first one of the whole. -/
theorem NoCompleteFrame.drop {skip : Nat} {b : List Byte} (h : NoCompleteFrame skip b) (n : Nat) :
    NoCompleteFrame skip (b.drop n) := by
  obtain hno | ⟨s, hs, hend⟩ := h
  · exact .inl (hno.drop (Nat.zero_le _))
  · obtain hno' | ⟨s', hs'⟩ := noPair_or_exists_isLeastPair (b.drop n) startMarker 0
    · exact .inl hno'
    · have hle := hs.le_add_of_drop hs'
      exact .inr ⟨s', hs', hend.drop (by omega)⟩

theorem NoCompleteFrame.of_suffix {skip : Nat} {b b' : List Byte} (h : NoCompleteFrame skip b) (hb : b' <:+ b) :
    NoCompleteFrame skip b' := by
  rw [List.suffix_iff_eq_drop.mp hb]
  exact h.drop _

theorem Extracts.noCompleteFrame {skip : Nat} {b rem : List Byte} {fs : List Frame} (h : Extracts skip b fs rem) :
    NoCompleteFrame skip rem := by
  induction h with
  | stop b hstop => exact hstop
  | cut b s e fs rem _ _ _ ih => exact ih

theorem length_overflowPolicy_buf_le {s : State} (h : s.cfg.tailKeep ≤ s.cfg.maxBuf) :
    (overflowPolicy s).buf.length ≤ s.cfg.maxBuf := by
  obtain hlt | hle := Nat.lt_or_ge s.cfg.maxBuf s.buf.length
  · rw [overflowPolicy_of_lt hlt]
    simp only [State.setOvf_buf, State.setBuf_buf]
    rw [Memory.length_last (by omega)]
    exact h
  · rw [overflowPolicy_of_le hle]
    exact hle

/-- Settles O19: the overflow policy bounds the length, and the suffix it leaves of the loop's remainder holds no frame. -/
theorem extractEstablishesBound : Obligations.ExtractEstablishesBound := by
  intro s htail
  refine ⟨_, exec_extract s, length_overflowPolicy_buf_le (s := s.setBuf _) htail, ?_⟩
  exact (extracts_extractFrames _ s.buf).noCompleteFrame.of_suffix (overflowPolicy_buf_suffix (s.setBuf _))

/-! ### What EXTRACT returns -/

/-- The shape of a frame (R29). -/
structure HasFrameShape (skip : Nat) (f : Frame) : Prop where
  start0 : f[0]? = some 0x3C
  start1 : f[1]? = some 0x3A
  end0 : f[f.length - 2]? = some 0x3A
  end1 : f[f.length - 1]? = some 0x3E
  length : skip + 2 ≤ f.length
  inside : ∀ i, skip ≤ i → i + 2 < f.length → ¬ (f[i]? = some 0x3A ∧ f[i + 1]? = some 0x3E)

theorem getElem?_slice {b : List Byte} {s e i : Nat} (h : s + i < e) : (slice b s e)[i]? = b[s + i]? := by
  rw [slice, List.getElem?_take_of_lt (by omega), List.getElem?_drop]

theorem length_slice {b : List Byte} {s e : Nat} (h : e ≤ b.length) : (slice b s e).length = e - s := by
  simp only [slice, List.length_take, List.length_drop]
  omega

/-- A cut from the first start marker to the first end marker after it has the shape of a frame (R29, R92). -/
theorem hasFrameShape_slice {skip s e : Nat} {b : List Byte} (hs : IsLeastPair b startMarker 0 s)
    (he : IsLeastPair b endMarker (s + skip) e) : HasFrameShape skip (slice b s (e + 2)) := by
  obtain ⟨-, hs0, hs1, -⟩ := hs
  obtain ⟨hle, he0, he1, hleast⟩ := he
  obtain ⟨hbound, -⟩ := List.getElem?_eq_some_iff.mp he1
  have hlen : (slice b s (e + 2)).length = e + 2 - s := length_slice (by omega)
  refine ⟨?_, ?_, ?_, ?_, by omega, fun i hi hlt => ?_⟩
  · rw [getElem?_slice (by omega)]
    exact hs0
  · rw [getElem?_slice (by omega)]
    exact hs1
  · rw [hlen, getElem?_slice (by omega), show s + (e + 2 - s - 2) = e by omega]
    exact he0
  · rw [hlen, getElem?_slice (by omega), show s + (e + 2 - s - 1) = e + 1 by omega]
    exact he1
  · rw [getElem?_slice (by omega), getElem?_slice (by omega), ← Nat.add_assoc]
    exact hleast (s + i) (by omega) (by omega)

theorem Extracts.hasFrameShape {skip : Nat} {b rem : List Byte} {fs : List Frame} (h : Extracts skip b fs rem) :
    ∀ f ∈ fs, HasFrameShape skip f := by
  induction h with
  | stop b _ => simp
  | cut b s e fs rem hs he _ ih => exact List.forall_mem_cons.mpr ⟨hasFrameShape_slice hs he, ih⟩

/-- Settles O22: the frames presented are those the loop cut out. -/
theorem returnedFramesHaveFrameShape : Obligations.ReturnedFramesHaveFrameShape := by
  intro s t fs f _ h hout hf
  rw [exec_extract] at h
  cases h
  cases hout
  obtain ⟨start0, start1, end0, end1, length, inside⟩ := (extracts_extractFrames _ s.buf).hasFrameShape f hf
  exact ⟨start0, start1, end0, end1, length, inside⟩

/-! ### The stream -/

theorem streamOf_cons_of_ne_reset {i : Instr} (hi : i ≠ .reset) (rest : List Instr) (acc : List Byte) :
    streamOf (i :: rest) acc = streamOf rest (acc ++ appended i) := by
  cases i with
  | append | markerStart | markerEnd => rfl
  | reset => exact absurd rfl hi
  | _ => simp [streamOf, appended]

theorem appended_of_not_mayWriteBuf {i : Instr} (hi : mayWriteBuf i = false) : appended i = [] := by
  cases i with
  | append | markerStart | markerEnd => simp [mayWriteBuf] at hi
  | _ => rfl

/-- An instruction but RESET leaves a suffix of the buffer followed by what it appends. -/
theorem exec_buf_suffix {i : Instr} {s t : State} (hi : i ≠ .reset) (h : exec i s = .next t) :
    t.buf <:+ s.buf ++ appended i := by
  obtain ⟨hw, o, rfl⟩ | ⟨rfl, rfl⟩ | ⟨rfl, -⟩ | ⟨-, -, rfl⟩ := exec_cases h
  · simp [appended_of_not_mayWriteBuf hw]
  · simpa [appended] using (overflowPolicy_buf_suffix _).trans (extracts_extractFrames _ s.buf).suffix
  · exact absurd rfl hi
  · exact List.suffix_rfl

theorem runProgram_cons_eq_next {i : Instr} {rest : List Instr} {s t : State} {os : List Output} :
    runProgram (i :: rest) s = .next (os, t) ↔
      ∃ u os', exec i s = .next u ∧ runProgram rest u = .next (os', t) ∧ u.out :: os' = os := by
  simp [runProgram, andThen_eq_next]

/-- Settles O28, by induction on the program: RESET starts the stream again, and any other instruction leaves a suffix of
the buffer and of what it appends to the stream. -/
theorem bufferIsSuffixOfStream : Obligations.BufferIsSuffixOfStream := by
  intro is
  induction is with
  | nil =>
    intro s t os acc hacc h
    cases h
    exact hacc
  | cons i rest ih =>
    intro s t os acc hacc h
    obtain ⟨u, os', hexec, hrest, -⟩ := runProgram_cons_eq_next.mp h
    by_cases hi : i = .reset
    · subst hi
      rw [exec_reset] at hexec
      cases hexec
      exact ih _ t os' [] List.suffix_rfl hrest
    · rw [streamOf_cons_of_ne_reset hi]
      have hstep : u.buf <:+ acc ++ appended i := (exec_buf_suffix hi hexec).trans (List.suffix_append_self_iff.mpr hacc)
      exact ih u t os' _ hstep hrest

/-! ### The caller's record is never read -/

theorem finish_setPending_setOut (o' : Output) (s : State) (p : List Request) (o : Output) :
    finish o' ((s.setPending p).setOut o) = andThen (finish o' s) fun t => .next (t.setPending p) := rfl

theorem encodeOperands_setPending_setOut (ch : ChannelId) (m : MethodId) (v : CmdValue) (s : State) (p : List Request)
    (o : Output) : encodeOperands ch m v ((s.setPending p).setOut o)
      = andThen (encodeOperands ch m v s) fun t => .next (t.setPending p) := by
  rw [encodeOperands_eq, encodeOperands_eq]
  rfl

theorem appendBytes_setPending_setOut (bs : List Byte) (s : State) (p : List Request) (o : Output) :
    appendBytes bs ((s.setPending p).setOut o) = andThen (appendBytes bs s) fun t => .next (t.setPending p) := by
  cases hcap : Memory.wf s.cfg.bufPhysCap (s.buf ++ bs) with
  | true =>
    rw [appendBytes_of_wf hcap, appendBytes_of_wf (s := (s.setPending p).setOut o) hcap]
    rfl
  | false =>
    rw [appendBytes_of_not_wf hcap, appendBytes_of_not_wf (s := (s.setPending p).setOut o) hcap]
    rfl

theorem exec_extract_setPending_setOut (s : State) (p : List Request) (o : Output) :
    exec .extract ((s.setPending p).setOut o) = andThen (exec .extract s) fun t => .next (t.setPending p) := by
  simp [exec_extract, State.setOut_setBuf, State.setPending_setBuf, State.setOut_setPending, overflowPolicy_setOut,
    overflowPolicy_setPending]

theorem exec_setPending_setOut (i : Instr) (s : State) (p : List Request) (o : Output) :
    exec i ((s.setPending p).setOut o) = andThen (exec i s) fun t => .next (t.setPending p) := by
  cases i with
  | append | markerStart | markerEnd => exact appendBytes_setPending_setOut _ s p o
  | extract => exact exec_extract_setPending_setOut s p o
  | encode | cmd | cmdI | cmdR | cmdP => exact encodeOperands_setPending_setOut _ _ _ s p o
  | reset => exact finish_setPending_setOut .none ((s.setBuf []).setOvf 0) p o
  | reservedOp6 | reservedOp7 => rfl
  | nop | status | decode | tlmFrame33 | tlmFrame13 | tlmFrame23 | modeCurrent | modeResistance | modePower | modeNone
  | errOk | errInvalidChannel | errInvalidMethod | errInvalidValue => exact finish_setPending_setOut _ s p o

/-- Settles O55: writing the queue and the result is `setPending` and `setOut`. -/
theorem resultAndQueueAreNeverRead : Obligations.ResultAndQueueAreNeverRead := exec_setPending_setOut

/-! ### The block keeps no history -/

/-- All that a program's end shows of the machine: the results in order, and the block and the parameters left. -/
def observed (is : List Instr) (s : State) : Host.Outcome (List Output × Block × Config) Fault Refusal :=
  andThen (runProgram is s) fun r => .next (r.1, r.2.toBlock, r.2.cfg)

theorem observed_cons (i : Instr) (rest : List Instr) (s : State) :
    observed (i :: rest) s =
      andThen (exec i s) fun t => andThen (observed rest t) fun q => .next (t.out :: q.1, q.2) := by
  simp [observed, runProgram, andThen_assoc]

theorem observed_eq_next {is : List Instr} {s : State} {os : List Output} {b : Block} {c : Config} :
    observed is s = .next (os, b, c) ↔ ∃ t, runProgram is s = .next (os, t) ∧ t.toBlock = b ∧ t.cfg = c := by
  simp [observed, andThen_eq_next]

theorem observed_eq_refused {is : List Instr} {s : State} {r : Refusal} :
    observed is s = .refused r ↔ runProgram is s = .refused r := by
  unfold observed
  cases runProgram is s <;> simp [andThen]

/-- States with one block and the same parameters differ in the caller's record alone. -/
theorem eq_setPending_setOut {s s' : State} (hblock : s.toBlock = s'.toBlock) (hcfg : s.cfg = s'.cfg) :
    s' = (s.setPending s'.pending).setOut s'.out := by
  obtain ⟨b, c, cfg⟩ := s
  obtain ⟨b', c', cfg'⟩ := s'
  obtain rfl : b = b' := hblock
  obtain rfl : cfg = cfg' := hcfg
  rfl

/-- By induction on the program: one instruction answers the same from both states, the caller's queue apart. -/
theorem observed_eq_of_block_eq (is : List Instr) {s s' : State} (hblock : s.toBlock = s'.toBlock)
    (hcfg : s.cfg = s'.cfg) : observed is s' = observed is s := by
  induction is generalizing s s' with
  | nil => simp [observed, runProgram, hblock, hcfg]
  | cons i rest ih =>
    have hexec : exec i s' = andThen (exec i s) fun t => .next (t.setPending s'.pending) :=
      (congrArg (exec i) (eq_setPending_setOut hblock hcfg)).trans (exec_setPending_setOut i s _ _)
    have hrest : ∀ t : State, observed rest (t.setPending s'.pending) = observed rest t := fun t => ih rfl rfl
    simp [observed_cons, hexec, andThen_assoc, hrest]

/-- Settles O59: from equal blocks and parameters a program shows the same end. -/
theorem blockKeepsNoHistory : Obligations.BlockKeepsNoHistory := by
  intro is s s' hblock hcfg
  have hsame := observed_eq_of_block_eq is hblock hcfg
  constructor
  · intro os t h
    exact observed_eq_next.mp (hsame.trans (observed_eq_next.mpr ⟨t, h, rfl, rfl⟩))
  · intro r h
    exact observed_eq_refused.mp (hsame.trans (observed_eq_refused.mpr h))

end Sys2Proof.Machine
end

section
/-!
PROOFS. The buffer that EXTRACT is given, cut into garbage, frames and remainder.
-/

namespace Sys2Proof.Machine

theorem take_append_slice_append_drop {b : List Byte} {s e : Nat} (h : s ≤ e) :
    b.take s ++ slice b s e ++ b.drop e = b := by
  have htake : b.take s ++ slice b s e = b.take e := by
    rw [slice, ← List.take_add, Nat.add_sub_cancel' h]
  rw [htake, List.take_append_drop]

/-- `b` is garbage, frame, garbage, frame, and so on to a remainder, with the frames in the order listed (R54). -/
def IsSlicedInto (b : List Byte) (fs : List Frame) (rem : List Byte) : Prop :=
  ∃ gs : List (List Byte), gs.length = fs.length ∧ b = (List.zipWith (· ++ ·) gs fs).flatten ++ rem

theorem isSlicedInto_nil (b : List Byte) : IsSlicedInto b [] b := ⟨[], rfl, rfl⟩

/-- A frame cut out at `s` goes before the frames of what follows it, and the bytes before `s` are its garbage. -/
theorem IsSlicedInto.cons_slice {b rem : List Byte} {fs : List Frame} {s e : Nat} (hse : s ≤ e)
    (h : IsSlicedInto (b.drop e) fs rem) : IsSlicedInto b (slice b s e :: fs) rem := by
  obtain ⟨gs, hlen, hdrop⟩ := h
  refine ⟨b.take s :: gs, congrArg (· + 1) hlen, ?_⟩
  calc
    b = b.take s ++ slice b s e ++ b.drop e := (take_append_slice_append_drop hse).symm
    _ = b.take s ++ slice b s e ++ ((List.zipWith (· ++ ·) gs fs).flatten ++ rem) := by rw [← hdrop]
    _ = (List.zipWith (· ++ ·) (b.take s :: gs) (slice b s e :: fs)).flatten ++ rem := by simp

theorem Extracts.isSlicedInto {skip : Nat} {b rem : List Byte} {fs : List Frame} (h : Extracts skip b fs rem) :
    IsSlicedInto b fs rem := by
  induction h with
  | stop b _ => exact isSlicedInto_nil b
  | cut b s e fs rem _ he _ ih =>
    obtain ⟨hle, -⟩ := he
    exact ih.cons_slice (by omega)

/-- Settles O23: the loop slices the buffer into its frames and its remainder, of which the overflow policy leaves a suffix. -/
theorem framesAreOrderedDisjointSlices : Obligations.FramesAreOrderedDisjointSlices := by
  intro s t fs h hout
  rw [exec_extract] at h
  cases h
  cases hout
  obtain ⟨gs, hlen, hbuf⟩ := (extracts_extractFrames _ s.buf).isSlicedInto
  exact ⟨gs, _, hlen, hbuf, overflowPolicy_buf_suffix (s.setBuf _)⟩

end Sys2Proof.Machine
end

section
/-!
PROOFS. The encodings: a byte sequence and the fields cut from it, the packet and the clean frames read back byte by byte, what
the decoder can read from the serial line, and decoder and encoder as inverses (R60, R62, R65, R66, R70 to R77, R151).
-/

namespace Sys2Proof

/-! ### Bytes and channel groups -/

theorem map_byteAt_range (bs : List Byte) : (List.range bs.length).map (byteAt bs) = bs := by
  apply List.ext_getElem
  · simp
  · intro a _ ha
    simp [byteAt, ha]

/-- The two bytes of a 16-bit field are the bytes it was read from (R42). -/
@[simp] theorem hiByte_u16At (bs : List Byte) (a : Nat) : hiByte (u16At bs a) = byteAt bs a := hiByte_u16 _ _

@[simp] theorem loByte_u16At (bs : List Byte) (a : Nat) : loByte (u16At bs a) = byteAt bs (a + 1) := loByte_u16 _ _

/-- A group holds each of the nine bytes it was read from, the unread ones too. -/
@[simp] theorem bytes_groupAt (bs : List Byte) (a : Nat) :
    (groupAt bs a).bytes = (List.range' a 9).map (byteAt bs) := by
  simp [groupAt, ChanGroup.bytes, List.range']

theorem byteAt_append_right (pre bs : List Byte) (j : Nat) : byteAt (pre ++ bs) (pre.length + j) = byteAt bs j := by
  simp [byteAt, List.getElem?_append_right]

/-- A group's bytes, wherever they stand, are read back as the group (R62). -/
theorem groupAt_eq_of_append {bs : List Byte} {a : Nat} {g : ChanGroup} (pre post : List Byte)
    (hbs : bs = pre ++ (g.bytes ++ post)) (ha : pre.length = a) : groupAt bs a = g := by
  subst hbs ha
  have hbyte := byteAt_append_right pre (g.bytes ++ post)
  have hfirst : byteAt (pre ++ (g.bytes ++ post)) pre.length = hiByte g.voltage := hbyte 0
  simp only [groupAt, u16At, Nat.add_assoc, hbyte, hfirst]
  simp [byteAt, ChanGroup.bytes]

@[simp] theorem groupAt_frame13Bytes (g1 : ChanGroup) : groupAt (frame13Bytes g1) 2 = g1 :=
  groupAt_eq_of_append [0x3C, 0x3A] [0x3A, 0x3E] rfl rfl

@[simp] theorem groupAt_frame23Bytes_first (g1 : ChanGroup) (x : Byte) (g2 : ChanGroup) :
    groupAt (frame23Bytes g1 x g2) 2 = g1 :=
  groupAt_eq_of_append [0x3C, 0x3A] ([x] ++ g2.bytes ++ [0x3A, 0x3E]) rfl rfl

@[simp] theorem groupAt_frame23Bytes_second (g1 : ChanGroup) (x : Byte) (g2 : ChanGroup) :
    groupAt (frame23Bytes g1 x g2) 12 = g2 :=
  groupAt_eq_of_append ([0x3C, 0x3A] ++ g1.bytes ++ [x]) [0x3A, 0x3E] (List.append_assoc ..) rfl

@[simp] theorem groupAt_frame33Bytes_first (g1 : ChanGroup) (x : Byte) (g2 : ChanGroup) (y : Byte) (g3 : ChanGroup) :
    groupAt (frame33Bytes g1 x g2 y g3) 2 = g1 :=
  groupAt_eq_of_append [0x3C, 0x3A] ([x] ++ g2.bytes ++ [y] ++ g3.bytes ++ [0x3A, 0x3E]) rfl rfl

@[simp] theorem groupAt_frame33Bytes_second (g1 : ChanGroup) (x : Byte) (g2 : ChanGroup) (y : Byte) (g3 : ChanGroup) :
    groupAt (frame33Bytes g1 x g2 y g3) 12 = g2 :=
  groupAt_eq_of_append ([0x3C, 0x3A] ++ g1.bytes ++ [x]) ([y] ++ g3.bytes ++ [0x3A, 0x3E]) (by simp [frame33Bytes]) rfl

@[simp] theorem groupAt_frame33Bytes_third (g1 : ChanGroup) (x : Byte) (g2 : ChanGroup) (y : Byte) (g3 : ChanGroup) :
    groupAt (frame33Bytes g1 x g2 y g3) 22 = g3 :=
  groupAt_eq_of_append ([0x3C, 0x3A] ++ g1.bytes ++ [x] ++ g2.bytes ++ [y]) [0x3A, 0x3E] (List.append_assoc ..) rfl

/-! ### What the decoder reads from the wire -/

/-- The row of a packet: CMD.I, CMD.R, CMD.P by the method codes 1, 2, 3, and CMD for any other (R70, R72). -/
def packetRow (cc mc : Byte) (value : U16) : Instr :=
  if mc = 1 then .cmdI cc value
  else if mc = 2 then .cmdR cc value
  else if mc = 3 then .cmdP cc value
  else .cmd cc mc value

theorem decodePacket_of_packetShape {bs : List Byte} (h : packetShape bs = true) :
    decodePacket bs = .ok (packetRow (byteAt bs 2) (byteAt bs 4) (u16At bs 6)) := by
  unfold decodePacket packetRow
  rw [if_pos h]
  split_ifs <;> rfl

theorem decodeWire_packetBytes (cc mc : Byte) (value : U16) (ts : Nat) :
    decodeWire (packetBytes cc mc value) ts = .ok (packetRow cc mc value) := by
  have hvalue : u16At (packetBytes cc mc value) 6 = value := u16_hiByte_loByte value
  have hdecode := decodePacket_of_packetShape (bs := packetBytes cc mc value) rfl
  rw [hvalue] at hdecode
  exact hdecode

theorem decodeWire_frame13Bytes (g1 : ChanGroup) (ts : Nat) :
    decodeWire (frame13Bytes g1) ts = .ok (.tlmFrame13 g1 ts) := by
  have hshape : frameShape (frame13Bytes g1) = true := rfl
  simp [decodeWire, hshape]

theorem decodeWire_frame23Bytes (g1 : ChanGroup) (x : Byte) (g2 : ChanGroup) (ts : Nat) :
    decodeWire (frame23Bytes g1 x g2) ts = .ok (.tlmFrame23 g1 x g2 ts) := by
  have hshape : frameShape (frame23Bytes g1 x g2) = true := rfl
  have hx : byteAt (frame23Bytes g1 x g2) 11 = x := rfl
  simp [decodeWire, hshape, hx]

theorem decodeWire_frame33Bytes (g1 : ChanGroup) (x : Byte) (g2 : ChanGroup) (y : Byte) (g3 : ChanGroup) (ts : Nat) :
    decodeWire (frame33Bytes g1 x g2 y g3) ts = .ok (.tlmFrame33 g1 x g2 y g3 ts) := by
  have hshape : frameShape (frame33Bytes g1 x g2 y g3) = true := rfl
  have hx : byteAt (frame33Bytes g1 x g2 y g3) 11 = x := rfl
  have hy : byteAt (frame33Bytes g1 x g2 y g3) 21 = y := rfl
  simp [decodeWire, hshape, hx, hy]

theorem outsideOneToThree_iff (b : Byte) : outsideOneToThree b = true ↔ b ≠ 1 ∧ b ≠ 2 ∧ b ≠ 3 := by
  simp [outsideOneToThree]

theorem packetRow_of_outside {mc : Byte} (h : outsideOneToThree mc = true) (cc : Byte) (value : U16) :
    packetRow cc mc value = .cmd cc mc value := by
  obtain ⟨h1, h2, h3⟩ := (outsideOneToThree_iff mc).mp h
  rw [packetRow, if_neg h1, if_neg h2, if_neg h3]

theorem decodeMode_of_outside {mode : Byte} (h : outsideOneToThree mode = true) (k : Channel) (regs : RawRegs) (ts : Nat) :
    decodeMode mode k regs ts = .modeNone mode k regs ts := by
  obtain ⟨h1, h2, h3⟩ := (outsideOneToThree_iff mode).mp h
  rw [decodeMode, if_neg h1, if_neg h2, if_neg h3]

/-- Settles O7: by the row of the instruction, each operand is read back from the port, the byte or the field that carries it. -/
theorem decodeOfEncode : Obligations.DecodeOfEncode := by
  intro c i hwf
  cases i with
  | nop | append | extract | status | decode | reservedOp6 | reservedOp7 | reset => rfl
  | encode ch m v =>
    obtain ⟨hch, hm⟩ : ch.wf = true ∧ m.wf = true := by simpa [Instr.wf] using hwf
    simp [Sys2Proof.encode, Sys2Proof.decode, decodePorts, channelOfPort_port ch hch, methodOfPort_port m hm,
      valueOfPorts_ports]
  | markerStart | markerEnd => rfl
  | cmd cc mc value => exact (decodeWire_packetBytes cc mc value 0).trans (congrArg _ (packetRow_of_outside hwf cc value))
  | cmdI cc value => exact decodeWire_packetBytes cc 1 value 0
  | cmdR cc value => exact decodeWire_packetBytes cc 2 value 0
  | cmdP cc value => exact decodeWire_packetBytes cc 3 value 0
  | tlmFrame33 g1 x g2 y g3 ts => exact decodeWire_frame33Bytes g1 x g2 y g3 ts
  | tlmFrame13 g1 ts => exact decodeWire_frame13Bytes g1 ts
  | tlmFrame23 g1 x g2 ts => exact decodeWire_frame23Bytes g1 x g2 ts
  | modeCurrent | modeResistance | modePower => rfl
  | modeNone mode k regs ts =>
    obtain ⟨hmode, -⟩ : outsideOneToThree mode = true ∧ tsFits c ts = true := by simpa [Instr.wf] using hwf
    exact congrArg _ (decodeMode_of_outside hmode k regs ts)
  | errOk | errInvalidChannel | errInvalidMethod | errInvalidValue => rfl

/-! ### Each byte sequence is read in one way -/

theorem eq_markerBytes {bs : List Byte} {p : Byte × Byte} (hlen : bs.length = 2) (h : (byteAt bs 0, byteAt bs 1) = p) :
    bs = [p.1, p.2] := by
  subst h
  exact (map_byteAt_range bs).symm.trans (by rw [hlen]; rfl)

theorem eq_packetBytes {bs : List Byte} (hlen : bs.length = 10) (h : packetShape bs = true) :
    bs = packetBytes (byteAt bs 2) (byteAt bs 4) (u16At bs 6) := by
  simp only [packetShape, Bool.and_eq_true, beq_iff_eq] at h
  calc
    bs = (List.range 10).map (byteAt bs) := by rw [← hlen, map_byteAt_range]
    _ = packetBytes (byteAt bs 2) (byteAt bs 4) (u16At bs 6) := by simp [List.range_succ, packetBytes, h]

theorem frameShape_iff {bs : List Byte} {n : Nat} (hlen : bs.length = n + 2) :
    frameShape bs = true ↔
      byteAt bs 0 = 0x3C ∧ byteAt bs 1 = 0x3A ∧ byteAt bs n = 0x3A ∧ byteAt bs (n + 1) = 0x3E := by
  simp [frameShape, hlen, and_assoc]

theorem eq_frame13Bytes {bs : List Byte} (hlen : bs.length = 13) (h : frameShape bs = true) :
    bs = frame13Bytes (groupAt bs 2) := by
  obtain ⟨h0, h1, h11, h12⟩ := (frameShape_iff hlen).mp h
  calc
    bs = (List.range 13).map (byteAt bs) := by rw [← hlen, map_byteAt_range]
    _ = ([0, 1] ++ List.range' 2 9 ++ [11, 12]).map (byteAt bs) := rfl
    _ = frame13Bytes (groupAt bs 2) := by
      simp only [List.map_append, List.map_cons, List.map_nil, h0, h1, h11, h12, frame13Bytes, bytes_groupAt]

theorem eq_frame23Bytes {bs : List Byte} (hlen : bs.length = 23) (h : frameShape bs = true) :
    bs = frame23Bytes (groupAt bs 2) (byteAt bs 11) (groupAt bs 12) := by
  obtain ⟨h0, h1, h21, h22⟩ := (frameShape_iff hlen).mp h
  calc
    bs = (List.range 23).map (byteAt bs) := by rw [← hlen, map_byteAt_range]
    _ = ([0, 1] ++ List.range' 2 9 ++ [11] ++ List.range' 12 9 ++ [21, 22]).map (byteAt bs) := rfl
    _ = frame23Bytes (groupAt bs 2) (byteAt bs 11) (groupAt bs 12) := by
      simp only [List.map_append, List.map_cons, List.map_nil, h0, h1, h21, h22, frame23Bytes, bytes_groupAt]

theorem eq_frame33Bytes {bs : List Byte} (hlen : bs.length = 33) (h : frameShape bs = true) :
    bs = frame33Bytes (groupAt bs 2) (byteAt bs 11) (groupAt bs 12) (byteAt bs 21) (groupAt bs 22) := by
  obtain ⟨h0, h1, h31, h32⟩ := (frameShape_iff hlen).mp h
  calc
    bs = (List.range 33).map (byteAt bs) := by rw [← hlen, map_byteAt_range]
    _ = ([0, 1] ++ List.range' 2 9 ++ [11] ++ List.range' 12 9 ++ [21] ++ List.range' 22 9 ++ [31, 32]).map
        (byteAt bs) := rfl
    _ = frame33Bytes (groupAt bs 2) (byteAt bs 11) (groupAt bs 12) (byteAt bs 21) (groupAt bs 22) := by
      simp only [List.map_append, List.map_cons, List.map_nil, h0, h1, h31, h32, frame33Bytes, bytes_groupAt]

/-- Everything the decoder can read from the wire: a marker, a packet or a clean frame, with the bytes it is written in. -/
theorem decodeWire_cases {bs : List Byte} {ts : Nat} {i : Instr} (h : decodeWire bs ts = .ok i) :
    (bs = [0x3C, 0x3A] ∧ i = .markerStart)
      ∨ (bs = [0x3A, 0x3E] ∧ i = .markerEnd)
      ∨ (∃ cc mc value, bs = packetBytes cc mc value ∧ i = packetRow cc mc value)
      ∨ (∃ g1, bs = frame13Bytes g1 ∧ i = .tlmFrame13 g1 ts)
      ∨ (∃ g1 x g2, bs = frame23Bytes g1 x g2 ∧ i = .tlmFrame23 g1 x g2 ts)
      ∨ ∃ g1 x g2 y g3, bs = frame33Bytes g1 x g2 y g3 ∧ i = .tlmFrame33 g1 x g2 y g3 ts := by
  unfold decodeWire at h
  split at h
  case h_1 hlen =>
    unfold decodeMarker at h
    split_ifs at h with hstart hend
    · cases h
      exact .inl ⟨eq_markerBytes hlen hstart, rfl⟩
    · cases h
      exact .inr (.inl ⟨eq_markerBytes hlen hend, rfl⟩)
  case h_2 hlen =>
    cases hshape : packetShape bs with
    | false => simp [decodePacket, hshape] at h
    | true =>
      rw [decodePacket_of_packetShape hshape] at h
      cases h
      exact .inr (.inr (.inl ⟨_, _, _, eq_packetBytes hlen hshape, rfl⟩))
  case h_3 hlen =>
    split_ifs at h with hshape
    cases h
    exact .inr (.inr (.inr (.inl ⟨_, eq_frame13Bytes hlen hshape, rfl⟩)))
  case h_4 hlen =>
    split_ifs at h with hshape
    cases h
    exact .inr (.inr (.inr (.inr (.inl ⟨_, _, _, eq_frame23Bytes hlen hshape, rfl⟩))))
  case h_5 hlen =>
    split_ifs at h with hshape
    cases h
    exact .inr (.inr (.inr (.inr (.inr ⟨_, _, _, _, _, eq_frame33Bytes hlen hshape, rfl⟩))))
  case h_6 => cases h

theorem encode_packetRow (cc mc : Byte) (value : U16) : encode (packetRow cc mc value) = .wire (packetBytes cc mc value) 0 := by
  unfold packetRow
  split_ifs with h1 h2 h3
  · rw [h1]; rfl
  · rw [h2]; rfl
  · rw [h3]; rfl
  · rfl

/-- Settles O8: each kind of instruction the decoder reads from the wire is written in the bytes it was read from. -/
theorem encodeOfDecodedWire : Obligations.EncodeOfDecodedWire := by
  intro bs ts i h
  obtain ⟨rfl, rfl⟩ | ⟨rfl, rfl⟩ | ⟨cc, mc, value, rfl, rfl⟩ | ⟨g1, rfl, rfl⟩ | ⟨g1, x, g2, rfl, rfl⟩
    | ⟨g1, x, g2, y, g3, rfl, rfl⟩ := decodeWire_cases h
  · exact ⟨0, rfl⟩
  · exact ⟨0, rfl⟩
  · exact ⟨0, encode_packetRow cc mc value⟩
  · exact ⟨ts, rfl⟩
  · exact ⟨ts, rfl⟩
  · exact ⟨ts, rfl⟩

/-! ### What is decoded is well formed -/

theorem packetRow_wf (c : Config) (cc mc : Byte) (value : U16) : (packetRow cc mc value).wf c = true := by
  unfold packetRow
  split_ifs with h1 h2 h3
  · rfl
  · rfl
  · rfl
  · exact (outsideOneToThree_iff mc).mpr ⟨h1, h2, h3⟩

theorem decodeMode_wf {c : Config} {ts : Nat} (hts : tsFits c ts = true) (mode : Byte) (k : Channel) (regs : RawRegs) :
    (decodeMode mode k regs ts).wf c = true := by
  unfold decodeMode
  split_ifs with h1 h2 h3
  · exact hts
  · exact hts
  · exact hts
  · simp [Instr.wf, hts, (outsideOneToThree_iff mode).mpr ⟨h1, h2, h3⟩]

theorem channelOfPort_wf (b : Byte) : (channelOfPort b).wf = true := by
  unfold channelOfPort
  split_ifs with h1 h2 h3
  · rfl
  · rfl
  · rfl
  · exact decide_eq_true ⟨h1, h2, h3⟩

theorem methodOfPort_wf (b : Byte) : (methodOfPort b).wf = true := by
  unfold methodOfPort
  split_ifs with h1 h2 h3
  · rfl
  · rfl
  · rfl
  · exact decide_eq_true ⟨h1, h2, h3⟩

/-- Of the operations only DECODE has an operand a port may not carry, its timestamp (R76). -/
theorem decodePorts_wf {c : Config} {p : Ports} (hts : tsFits c p.decTs = true) : (decodePorts p).wf c = true := by
  have hencode : (Instr.encode (channelOfPort p.cmdChannel) (methodOfPort p.cmdMethod)
      (valueOfPorts p.cmdValueOk p.cmdValue)).wf c = true := by
    simp [Instr.wf, channelOfPort_wf, methodOfPort_wf]
  unfold decodePorts
  split_ifs
  · rfl
  · rfl
  · rfl
  · rfl
  · rfl
  · exact hts
  · exact hencode
  · rfl
  · rfl

theorem decodeErr_wf (cfg : Config) (code : BitVec 2) (c : Channel) (m : Method) (n : U16) :
    (decodeErr code c m n).wf cfg = true := by
  unfold decodeErr
  split_ifs <;> rfl

theorem decodeWire_wf {c : Config} {bs : List Byte} {ts : Nat} {i : Instr} (hts : tsFits c ts = true)
    (h : decodeWire bs ts = .ok i) : i.wf c = true := by
  obtain ⟨-, rfl⟩ | ⟨-, rfl⟩ | ⟨cc, mc, value, -, rfl⟩ | ⟨g1, -, rfl⟩ | ⟨g1, x, g2, -, rfl⟩
    | ⟨g1, x, g2, y, g3, -, rfl⟩ := decodeWire_cases h
  · rfl
  · rfl
  · exact packetRow_wf c cc mc value
  · exact hts
  · exact hts
  · exact hts

/-- Settles O9: by the kind of request, each check but that of the timestamp is what the decoder decided by. -/
theorem decodedIsWellFormed : Obligations.DecodedIsWellFormed := by
  intro c r i h hts
  have hfits : tsFits c (Machine.requestTs r) = true := decide_eq_true hts
  cases r with
  | ports p =>
    cases h
    exact decodePorts_wf hfits
  | wire bs ts => exact decodeWire_wf hfits h
  | modeByte mode k regs ts =>
    cases h
    exact decodeMode_wf hfits mode k regs
  | errCode code ch m n =>
    cases h
    exact decodeErr_wf c code ch m n
  | noFormat nbits w => cases h

/-- Settles O10: the decoder runs on each word. -/
theorem writtenOutWordsDecode : Obligations.WrittenOutWordsDecode :=
  ⟨rfl, rfl, rfl, rfl, rfl, rfl, rfl, rfl, rfl⟩

end Sys2Proof
end

section
/-!
PROOFS. What the encoded rows do: the packet as an 80-bit word and the packets ENCODE emits (R70 to R74), the command rows, the
telemetry and mode rows (R62, R65, R66, R118), the markers, the rows that are labels (R81), and POLL (R80).
-/

namespace Sys2Proof.Machine

/-! ### The packet as a word -/

/-- A packet's byte sequence is a command row's. -/
theorem packetOf_toList (c : Channel) (m : Method) (n : U16) : (packetOf c m n).toList = packetBytes c.code m.code n := rfl

theorem toNat_append_eq_add {v w : Nat} (x : BitVec v) (y : BitVec w) : (x ++ y).toNat = x.toNat * 2 ^ w + y.toNat := by
  rw [BitVec.toNat_append, ← Nat.shiftLeft_add_eq_or_of_lt y.isLt, Nat.shiftLeft_eq]

/-- A packet as its constants and its three fields, the top bits first (R70). -/
def packetBits (cc mc : Byte) (n : U16) : BitVec 80 :=
  0x3C3A#16 ++ cc ++ 0x3A#8 ++ mc ++ 0x3A#8 ++ n ++ 0x3A3E#16

theorem packetBits_toNat (cc mc : Byte) (n : U16) :
    (packetBits cc mc n).toNat = 0x3C3A003A003A00003A3E + cc.toNat * 2 ^ 56 + mc.toNat * 2 ^ 40 + n.toNat * 2 ^ 16 := by
  simp only [packetBits, toNat_append_eq_add, BitVec.toNat_ofNat]
  omega

theorem packetWord_packetOf (c : Channel) (m : Method) (n : U16) :
    packetWord (packetOf c m n) = packetBits c.code m.code n := by
  apply BitVec.eq_of_toNat_eq
  rw [packetBits_toNat, packetWord, packetOf_toList]
  simp only [packetBytes, beNat, List.foldl_cons, List.foldl_nil, hiByte_toNat, loByte_toNat, BitVec.ofNat_eq_ofNat,
    BitVec.toNat_ofNat]
  omega

theorem extractLsb'_eq_of_toNat {w start len : Nat} {x : BitVec w} {y : BitVec len}
    (h : x.toNat / 2 ^ start % 2 ^ len = y.toNat) : x.extractLsb' start len = y := by
  apply BitVec.eq_of_toNat_eq
  rw [BitVec.extractLsb'_toNat, Nat.shiftRight_eq_div_pow, h]

theorem packetBits_channel (cc mc : Byte) (n : U16) : (packetBits cc mc n).extractLsb' 56 8 = cc :=
  extractLsb'_eq_of_toNat (by rw [packetBits_toNat]; omega)

theorem packetBits_method (cc mc : Byte) (n : U16) : (packetBits cc mc n).extractLsb' 40 8 = mc :=
  extractLsb'_eq_of_toNat (by rw [packetBits_toNat]; omega)

theorem packetBits_value (cc mc : Byte) (n : U16) : (packetBits cc mc n).extractLsb' 16 16 = n :=
  extractLsb'_eq_of_toNat (by rw [packetBits_toNat]; omega)

/-- The mask of R70 keeps the constants and clears the fields: it is all ones or all zeros on each part. -/
theorem packetBits_and_mask (cc mc : Byte) (n : U16) :
    packetBits cc mc n &&& 0xFFFF00FF00FF0000FFFF#80 = 0x3C3A003A003A00003A3E#80 := by
  have hmask : 0xFFFF00FF00FF0000FFFF#80 = 0xFFFF#16 ++ 0#8 ++ 0xFF#8 ++ 0#8 ++ 0xFF#8 ++ 0#16 ++ 0xFFFF#16 := rfl
  rw [hmask]
  calc
    (0x3C3A#16 ++ cc ++ 0x3A#8 ++ mc ++ 0x3A#8 ++ n ++ 0x3A3E#16)
        &&& (0xFFFF#16 ++ 0#8 ++ 0xFF#8 ++ 0#8 ++ 0xFF#8 ++ 0#16 ++ 0xFFFF#16)
      = 0x3C3A#16 ++ 0#8 ++ 0x3A#8 ++ 0#8 ++ 0x3A#8 ++ 0#16 ++ 0x3A3E#16 := by
        simp only [BitVec.and_append, BitVec.and_zero]
        rfl
    _ = 0x3C3A003A003A00003A3E#80 := rfl

/-- Settles O46: the word is the constants and the fields of the packet side by side. -/
theorem packetWordFields : Obligations.PacketWordFields := by
  intro c m n
  rw [packetWord_packetOf]
  exact ⟨packetBits_and_mask .., packetBits_channel .., packetBits_method .., packetBits_value ..⟩

/-! ### The packets of ENCODE -/

theorem channelCode_injective : Function.Injective Channel.code := by
  intro c c' h
  simpa using congrArg channelOfCode h

theorem methodCode_injective : Function.Injective Method.code := by
  intro m m' h
  simpa using congrArg methodOfCode h

/-- The three fields of a packet tell it from any other (R74). -/
theorem packetOf_inj {c c' : Channel} {m m' : Method} {n n' : U16} (h : packetOf c m n = packetOf c' m' n') :
    c = c' ∧ m = m' ∧ n = n' := by
  have hword : packetBits c.code m.code n = packetBits c'.code m'.code n' := by
    rw [← packetWord_packetOf, ← packetWord_packetOf, h]
  refine ⟨channelCode_injective ?_, methodCode_injective ?_, ?_⟩
  · rw [← packetBits_channel c.code m.code n, hword, packetBits_channel]
  · rw [← packetBits_method c.code m.code n, hword, packetBits_method]
  · rw [← packetBits_value c.code m.code n, hword, packetBits_value]

/-- ENCODE answers a packet only past its three checks, and it is that of the channel, the method and the value (R130, R132). -/
theorem exists_packetOf_of_encodeCommand_eq_ok {cfg : Config} {ch : ChannelId} {m : MethodId} {v : CmdValue} {p : Packet}
    (h : encodeCommand cfg ch m v = .ok p) : ∃ c mm n, p = packetOf c mm n := by
  unfold encodeCommand at h
  split at h
  · cases h
  · split at h
    · cases h
    · split at h
      · cases h
      · cases h
        exact ⟨_, _, _, rfl⟩

/-- A 16-bit value given as a number is sent as it is. -/
theorem encodeCommand_valueOfField (cfg : Config) (c : Channel) (m : Method) (n : U16) :
    encodeCommand cfg (.known c) (.known m) (valueOfField n) = .ok (packetOf c m n) := by
  rw [encodeCommand_known (q := n.toNat) rfl, valueField_natCast]

theorem exec_encode (ch : ChannelId) (m : MethodId) (v : CmdValue) (s : State) :
    exec (.encode ch m v) s = .next (s.setOut (.encoded (encodeCommand s.cfg ch m v))) := encodeOperands_eq ch m v s

/-- Settles O47: the fields of a packet's word tell the packets apart, and ENCODE reaches each through its own value field. -/
theorem emittedPackets : Obligations.EmittedPackets := by
  refine ⟨fun c c' m m' n n' h => packetOf_inj h, fun p s => ⟨?_, ?_⟩⟩
  · rintro ⟨ch, m, v, h⟩
    rw [exec_encode, Host.Outcome.next.injEq] at h
    have hout : Output.encoded (encodeCommand s.cfg ch m v) = .encoded (.ok p) := congrArg (·.out) h
    exact exists_packetOf_of_encodeCommand_eq_ok (Output.encoded.inj hout)
  · rintro ⟨c, m, n, rfl⟩
    refine ⟨.known c, .known m, valueOfField n, ?_⟩
    rw [exec_encode, encodeCommand_valueOfField]
    rfl

/-! ### The command rows -/

/-- Every command row is the ENCODE of the identifiers of its codes (R81; notes/assumptions 7). -/
theorem exec_cmd (cc mc : Byte) (n : U16) (s : State) :
    exec (.cmd cc mc n) s = exec (.encode (channelOfCode cc) (methodOfCode mc) (valueOfField n)) s := rfl
theorem exec_cmdI (cc : Byte) (n : U16) (s : State) : exec (.cmdI cc n) s = exec (.cmd cc 1 n) s := rfl
theorem exec_cmdR (cc : Byte) (n : U16) (s : State) : exec (.cmdR cc n) s = exec (.cmd cc 2 n) s := rfl
theorem exec_cmdP (cc : Byte) (n : U16) (s : State) : exec (.cmdP cc n) s = exec (.cmd cc 3 n) s := rfl

theorem exec_cmd_code (c : Channel) (m : Method) (n : U16) (s : State) :
    exec (.cmd c.code m.code n) s = .next (s.setOut (.encoded (.ok (packetOf c m n)))) := by
  rw [exec_cmd, channelOfCode_code, methodOfCode_code, exec_encode, encodeCommand_valueOfField]

theorem exec_cmd_of_outside_channel {cc : Byte} (h : outsideOneToThree cc = true) (mc : Byte) (n : U16) (s : State) :
    exec (.cmd cc mc n) s = .next (s.setOut (.encoded (.error .invalidChannel))) := by
  rw [exec_cmd, channelOfCode_of_outside h]
  rfl

theorem exec_cmd_of_outside_method {mc : Byte} (h : outsideOneToThree mc = true) (c : Channel) (n : U16) (s : State) :
    exec (.cmd c.code mc n) s = .next (s.setOut (.encoded (.error .invalidMethod))) := by
  rw [exec_cmd, channelOfCode_code, methodOfCode_of_outside h]
  rfl

/-- Settles O48: every command row is CMD with its method code, and ENCODE meets the codes with its packet or its first failing
check. -/
theorem commandRowsEncodeThemselves : Obligations.CommandRowsEncodeThemselves := by
  refine ⟨exec_cmd_code, fun c n s => ⟨?_, ?_, ?_⟩, packetOf_toList, fun cc mc n s hcc => ?_, fun c mc n s hmc => ?_⟩
  · exact (exec_cmdI c.code n s).trans (exec_cmd_code c .i n s)
  · exact (exec_cmdR c.code n s).trans (exec_cmd_code c .r n s)
  · exact (exec_cmdP c.code n s).trans (exec_cmd_code c .p n s)
  · have hrow := fun mc => exec_cmd_of_outside_channel hcc mc n s
    exact ⟨hrow mc, (exec_cmdI cc n s).trans (hrow 1), (exec_cmdR cc n s).trans (hrow 2), (exec_cmdP cc n s).trans (hrow 3)⟩
  · exact exec_cmd_of_outside_method hmc c n s

/-! ### The telemetry rows -/

/-- The reading of a channel group: its unread bytes do not enter (R62, R63). -/
def groupReading (scale : Nat) (g : ChanGroup) : ChannelReading :=
  channelReading scale g.mode ⟨g.voltage, g.current, g.ancillary⟩

theorem groupReading_is (scale : Nat) (g : ChanGroup) :
    ChannelIs scale g.voltage.toNat g.current.toNat g.ancillary.toNat g.mode.toNat (groupReading scale g) :=
  channelReading_is scale g.mode ⟨g.voltage, g.current, g.ancillary⟩

/-- A channel whose four fields lie inside the frame is read from its group, at index `a` (R62, R110). -/
theorem readingOf_ch_of_groupAt {f : Frame} {k : Channel} {a : Nat} {g : ChanGroup} (ha : chanBase k + 2 = a)
    (hlen : a + 9 ≤ f.length) (hg : groupAt f a = g) (scale ts : Nat) :
    (readingOf scale f ts).ch k = groupReading scale g := by
  subst ha hg
  have hmode : modeByte f k = (groupAt f (chanBase k + 2)).mode := if_pos (by omega)
  have hv : (rawRegs f k).v = (groupAt f (chanBase k + 2)).voltage := if_pos (by omega)
  have hi : (rawRegs f k).i = (groupAt f (chanBase k + 2)).current := if_pos (by omega)
  have hg : (rawRegs f k).g = (groupAt f (chanBase k + 2)).ancillary := if_pos (by omega)
  rw [readingOf_ch, groupReading, ← hmode, ← hv, ← hi, ← hg]

/-- A channel whose voltage lies beyond the frame is all zero (R120). -/
theorem readingOf_ch_of_length_lt {f : Frame} {k : Channel} (h : f.length < chanBase k + 4) (scale ts : Nat) :
    (readingOf scale f ts).ch k = zeroChannel := by
  have hmode : modeByte f k = 0 := frameRead8_of_lt (by omega)
  have hregs : rawRegs f k = ⟨0, 0, 0⟩ := by
    rw [rawRegs, frameRead16_of_lt (by omega), frameRead16_of_lt (by omega), frameRead16_of_lt (by omega)]
  rw [readingOf_ch, hmode, hregs, channelReading_zero]

theorem Reading.eq_mk {r : Reading} {ts : Nat} {c1 c2 c3 : ChannelReading} (hts : r.ts = ts) (h1 : r.ch .ch1 = c1)
    (h2 : r.ch .ch2 = c2) (h3 : r.ch .ch3 = c3) : r = ⟨ts, c1, c2, c3⟩ := by
  subst hts h1 h2 h3
  rfl

theorem readingOf_frame13Bytes (scale : Nat) (g1 : ChanGroup) (ts : Nat) :
    readingOf scale (frame13Bytes g1) ts = ⟨ts, groupReading scale g1, zeroChannel, zeroChannel⟩ := by
  apply Reading.eq_mk rfl
  · exact readingOf_ch_of_groupAt (a := 2) rfl (by simp) (groupAt_frame13Bytes g1) scale ts
  · exact readingOf_ch_of_length_lt (by simp [chanBase, chStride]) scale ts
  · exact readingOf_ch_of_length_lt (by simp [chanBase, chStride]) scale ts

theorem readingOf_frame23Bytes (scale : Nat) (g1 : ChanGroup) (x : Byte) (g2 : ChanGroup) (ts : Nat) :
    readingOf scale (frame23Bytes g1 x g2) ts
      = ⟨ts, groupReading scale g1, groupReading scale g2, zeroChannel⟩ := by
  apply Reading.eq_mk rfl
  · exact readingOf_ch_of_groupAt (a := 2) rfl (by simp) (groupAt_frame23Bytes_first g1 x g2) scale ts
  · exact readingOf_ch_of_groupAt (a := 12) rfl (by simp) (groupAt_frame23Bytes_second g1 x g2) scale ts
  · exact readingOf_ch_of_length_lt (by simp [chanBase, chStride]) scale ts

theorem readingOf_frame33Bytes (scale : Nat) (g1 : ChanGroup) (x : Byte) (g2 : ChanGroup) (y : Byte) (g3 : ChanGroup)
    (ts : Nat) : readingOf scale (frame33Bytes g1 x g2 y g3) ts
      = ⟨ts, groupReading scale g1, groupReading scale g2, groupReading scale g3⟩ := by
  apply Reading.eq_mk rfl
  · exact readingOf_ch_of_groupAt (a := 2) rfl (by simp) (groupAt_frame33Bytes_first g1 x g2 y g3) scale ts
  · exact readingOf_ch_of_groupAt (a := 12) rfl (by simp) (groupAt_frame33Bytes_second g1 x g2 y g3) scale ts
  · exact readingOf_ch_of_groupAt (a := 22) rfl (by simp) (groupAt_frame33Bytes_third g1 x g2 y g3) scale ts

/-- Presenting a Reading is all that DECODE does (R110). -/
theorem decodeFrame_of_readingOf {s : State} {f : Frame} {ts : Nat} {r : Reading}
    (h : readingOf s.cfg.powerScale f ts = r) : decodeFrame f ts s = .next (s.setOut (.reading r)) := by
  rw [decodeFrame, h]
  rfl

/-- Settles O40: each carried channel is the reading of its group, and a channel that is not carried is zero. -/
theorem telemetryRowsDecodeTheirFields : Obligations.TelemetryRowsDecodeTheirFields := by
  refine ⟨fun g1 ts s => ?_, fun g1 x g2 ts s => ?_, fun g1 x g2 y g3 ts s => ?_⟩
  · exact ⟨_, decodeFrame_of_readingOf (readingOf_frame13Bytes ..), rfl, groupReading_is .., rfl, rfl⟩
  · exact ⟨_, decodeFrame_of_readingOf (readingOf_frame23Bytes ..), rfl, groupReading_is .., groupReading_is .., rfl⟩
  · exact ⟨_, decodeFrame_of_readingOf (readingOf_frame33Bytes ..), rfl, groupReading_is .., groupReading_is ..,
      groupReading_is ..⟩

/-! ### The mode rows -/

theorem groupReading_groupOf (scale : Nat) (mode : Byte) (regs : RawRegs) :
    groupReading scale (groupOf mode regs) = channelReading scale mode regs := rfl

theorem groupReading_zeroGroup (scale : Nat) : groupReading scale zeroGroup = zeroChannel := channelReading_zero scale

/-- The frame of one channel carries that channel's registers and mode byte, and zero in the others. -/
theorem readingOf_frameOfChannel (scale : Nat) (mode : Byte) (regs : RawRegs) (ts : Nat) (k j : Channel) :
    (readingOf scale (frameOfChannel mode regs k) ts).ch j
      = if j = k then channelReading scale mode regs else zeroChannel := by
  cases k with
  | ch1 =>
    rw [frameOfChannel, readingOf_frame13Bytes, groupReading_groupOf]
    cases j <;> rfl
  | ch2 =>
    rw [frameOfChannel, readingOf_frame23Bytes, groupReading_groupOf, groupReading_zeroGroup]
    cases j <;> rfl
  | ch3 =>
    rw [frameOfChannel, readingOf_frame33Bytes, groupReading_groupOf, groupReading_zeroGroup]
    cases j <;> rfl

/-- A mode byte acts on its own channel's reading alone (R118). -/
theorem decodeChannelMode_reading (mode : Byte) (k : Channel) (regs : RawRegs) (ts : Nat) (s : State) :
    ∃ r, decodeChannelMode mode k regs ts s = .next (s.setOut (.reading r)) ∧ r.ts = ts
      ∧ ChannelIs s.cfg.powerScale regs.v.toNat regs.i.toNat regs.g.toNat mode.toNat (r.ch k)
      ∧ ∀ j, j ≠ k → r.ch j = zeroChannel := by
  refine ⟨_, decodeFrame_of_readingOf rfl, rfl, ?_, fun j hj => ?_⟩
  · rw [readingOf_frameOfChannel, if_pos rfl]
    exact channelReading_is _ mode regs
  · rw [readingOf_frameOfChannel, if_neg hj]

/-- Every mode other than 1, 2, 3 leaves the derived values, as 0 does (R66). -/
theorem ChannelIs.mode_zero {scale v i g mode : Nat} {c : ChannelReading} (h : ChannelIs scale v i g mode c)
    (h1 : mode ≠ 1) (h2 : mode ≠ 2) (h3 : mode ≠ 3) : ChannelIs scale v i g 0 c := by
  simpa [ChannelIs, h1, h2, h3] using h

/-- Settles O41: the rows are the one operation on a mode byte, and a byte outside 1..3 overrides as little as 0. -/
theorem modeRowsOverrideOneField : Obligations.ModeRowsOverrideOneField := by
  intro k regs ts s
  refine ⟨decodeChannelMode_reading 1 k regs ts s, decodeChannelMode_reading 2 k regs ts s,
    decodeChannelMode_reading 3 k regs ts s, fun m h1 h2 h3 => ?_⟩
  obtain ⟨r, hexec, hts, hk, hother⟩ := decodeChannelMode_reading m k regs ts s
  refine ⟨r, hexec, hts, hk.mode_zero ?_ ?_ ?_, hother⟩
  · exact fun h => h1 ((byte_eq_ofNat_iff m (n := 1) (by omega)).mpr h)
  · exact fun h => h2 ((byte_eq_ofNat_iff m (n := 2) (by omega)).mpr h)
  · exact fun h => h3 ((byte_eq_ofNat_iff m (n := 3) (by omega)).mpr h)

/-! ### Markers, NOP and the reserved codes -/

/-- Settles O11: NOP presents no result and does nothing else. -/
theorem nopChangesNothing : Obligations.NopChangesNothing := fun _ => rfl

/-- Settles O13: a marker row is the shared append of its two bytes. -/
theorem markerRowsAppendTheirBytes : Obligations.MarkerRowsAppendTheirBytes := by
  refine ⟨fun s h => ?_, fun s h => ?_, fun s h => ?_, fun s h => ?_⟩
  · exact (exec_markerStart s).trans (appendBytes_of_wf h)
  · exact (exec_markerEnd s).trans (appendBytes_of_wf h)
  · exact (exec_markerStart s).trans (appendBytes_of_not_wf h)
  · exact (exec_markerEnd s).trans (appendBytes_of_not_wf h)

/-- Settles O33: both arms answer the refusal whatever the state. -/
theorem reservedOpsRefused : Obligations.ReservedOpsRefused := fun _ => ⟨rfl, rfl⟩

/-! ### Label rows -/

/-- The Ok row is the ENCODE that gives its packet (notes/assumptions 10). -/
theorem exec_errOk (c : Channel) (m : Method) (n : U16) (s : State) :
    exec (.errOk c m n) s = exec (.encode (.known c) (.known m) (valueOfField n)) s := by
  rw [exec_encode, encodeCommand_valueOfField]
  rfl

/-- Settles O57: a marker is an APPEND, a packet or an error code an ENCODE, a frame or a mode byte a DECODE. -/
theorem labelRowsAddNoBehaviour : Obligations.LabelRowsAddNoBehaviour := by
  intro i hop hres
  cases i with
  | nop | append | extract | status | decode | encode | reset => cases hop
  | reservedOp6 | reservedOp7 => cases hres
  | markerStart => exact ⟨.append [0x3C, 0x3A], rfl, exec_markerStart⟩
  | markerEnd => exact ⟨.append [0x3A, 0x3E], rfl, exec_markerEnd⟩
  | cmd cc mc n => exact ⟨.encode _ _ _, rfl, exec_cmd cc mc n⟩
  | cmdI cc n => exact ⟨.encode _ _ _, rfl, fun s => (exec_cmdI cc n s).trans (exec_cmd cc 1 n s)⟩
  | cmdR cc n => exact ⟨.encode _ _ _, rfl, fun s => (exec_cmdR cc n s).trans (exec_cmd cc 2 n s)⟩
  | cmdP cc n => exact ⟨.encode _ _ _, rfl, fun s => (exec_cmdP cc n s).trans (exec_cmd cc 3 n s)⟩
  | tlmFrame33 g1 x g2 y g3 ts => exact ⟨.decode (frame33Bytes g1 x g2 y g3) ts, rfl, fun _ => rfl⟩
  | tlmFrame13 g1 ts => exact ⟨.decode (frame13Bytes g1) ts, rfl, fun _ => rfl⟩
  | tlmFrame23 g1 x g2 ts => exact ⟨.decode (frame23Bytes g1 x g2) ts, rfl, fun _ => rfl⟩
  | modeCurrent k regs ts => exact ⟨.decode (frameOfChannel 1 regs k) ts, rfl, fun _ => rfl⟩
  | modeResistance k regs ts => exact ⟨.decode (frameOfChannel 2 regs k) ts, rfl, fun _ => rfl⟩
  | modePower k regs ts => exact ⟨.decode (frameOfChannel 3 regs k) ts, rfl, fun _ => rfl⟩
  | modeNone mode k regs ts => exact ⟨.decode (frameOfChannel mode regs k) ts, rfl, fun _ => rfl⟩
  | errOk c m n => exact ⟨.encode (.known c) (.known m) (valueOfField n), rfl, exec_errOk c m n⟩
  | errInvalidChannel => exact ⟨.encode (.unrecognised 0) (.known .i) .nan, rfl, fun _ => rfl⟩
  | errInvalidMethod => exact ⟨.encode (.known .ch1) (.unrecognised 0) .nan, rfl, fun _ => rfl⟩
  | errInvalidValue => exact ⟨.encode (.known .ch1) (.known .i) .nan, rfl, fun _ => rfl⟩

/-! ### POLL -/

theorem runProgram_keeps_cfg {is : List Instr} {s t : State} {os : List Output} (h : runProgram is s = .next (os, t)) :
    t.cfg = s.cfg := by
  induction is generalizing s os with
  | nil =>
    cases h
    rfl
  | cons i rest ih =>
    obtain ⟨u, os', hexec, hrest, -⟩ := runProgram_cons_eq_next.mp h
    exact (ih hrest).trans (exec_keeps_cfg_pending hexec).1

theorem exec_decode (f : Frame) (ts : Nat) (s : State) :
    exec (.decode f ts) s = .next (s.setOut (.reading (readingOf s.cfg.powerScale f ts))) := rfl

/-- The DECODEs of a POLL present one Reading for each frame and leave the block (R80). -/
theorem runProgram_decodeAll (fs : List Frame) (ts : Nat) (s : State) :
    ∃ u, runProgram (decodeAll fs ts) s
        = .next ((fs.map fun f => readingOf s.cfg.powerScale f ts).map .reading, u) ∧ u.toBlock = s.toBlock := by
  induction fs generalizing s with
  | nil => exact ⟨s, rfl, rfl⟩
  | cons f fs ih =>
    obtain ⟨u, hrest, hblock⟩ := ih (s.setOut (.reading (readingOf s.cfg.powerScale f ts)))
    refine ⟨u, (runProgram_cons (exec_decode f ts s)).trans ?_, hblock⟩
    rw [← decodeAll, hrest]
    rfl

theorem readingsOf_map_reading (rs : List Reading) : readingsOf (rs.map .reading) = rs := by
  induction rs with
  | nil => rfl
  | cons r rs ih => exact congrArg (r :: ·) ih

/-- Settles O58: the DECODEs read every frame of the FEED and leave its buffer and counter. -/
theorem pollReadsEveryFrame : Obligations.PollReadsEveryFrame := by
  intro bs ts s t os hfeed
  obtain ⟨u, hdecode, hblock⟩ := runProgram_decodeAll (framesOf os) ts t
  rw [runProgram_keeps_cfg hfeed] at hdecode
  refine ⟨_, u, ?_, rfl, congrArg Block.buf hblock, congrArg Block.ovfCount hblock⟩
  rw [poll, hfeed, andThen_next, hdecode, andThen_next, readingsOf_map_reading]

end Sys2Proof.Machine
end

section
/-!
PROOFS. The frame extractor: APPEND as concatenation within the capacity, EXTRACT as R92's loop and its end, what a buffer
without a frame does, the bound on the number of frames, how the bytes are split into chunks, and the two readings of
END_SCAN_SKIP.
-/

namespace Sys2Proof.Machine

/-! ### APPEND and STATUS -/

/-- Settles O12: the shared append, within the capacity. -/
theorem appendConcatenates : Obligations.AppendConcatenates := fun bs s h => (exec_append bs s).trans (appendBytes_of_wf h)

theorem appendBytes_eq_refused_iff (bs : List Byte) (s : State) :
    appendBytes bs s = .refused .capacityExceeded ↔ Memory.wf s.cfg.bufPhysCap (s.buf ++ bs) = false := by
  refine ⟨fun h => Bool.eq_false_iff.mpr fun hwf => ?_, appendBytes_of_not_wf⟩
  simp [appendBytes_of_wf hwf] at h

/-- Settles O14: a finite capacity is a bound on the length of the whole, an unbounded one is no bound. -/
theorem appendRefusedExactlyBeyondCapacity : Obligations.AppendRefusedExactlyBeyondCapacity := by
  constructor
  · intro bs s cap hcap
    rw [exec_append, appendBytes_eq_refused_iff, ← Bool.not_eq_true, Memory.wf_iff, hcap]
    simp
  · intro bs s hcap
    exact ⟨_, appendConcatenates bs s (by rw [hcap]; rfl)⟩

/-- Settles O15: where the first part does not fit neither does the whole, and where it fits both sides ask the same of the
same bytes. -/
theorem appendSplits : Obligations.AppendSplits := by
  intro a b s
  simp only [exec_append]
  cases ha : Memory.wf s.cfg.bufPhysCap (s.buf ++ a) with
  | false =>
    have hab : Memory.wf s.cfg.bufPhysCap (s.buf ++ (a ++ b)) = false :=
      Bool.eq_false_iff.mpr fun hfits => Bool.eq_false_iff.mp ha (Memory.wf_of_length_le hfits (by simp))
    rw [appendBytes_of_not_wf ha, appendBytes_of_not_wf hab]
    rfl
  | true =>
    rw [appendBytes_of_wf ha, andThen_next, exec_append]
    simp only [appendBytes, Memory.append, State.setOut_buf, State.setBuf_buf, State.setOut_cfg, State.setBuf_cfg,
      List.append_assoc]
    rfl

/-- Settles O31: STATUS presents the two numbers as its result. -/
theorem statusReportsLengthAndCount : Obligations.StatusReportsLengthAndCount := fun _ => rfl

/-! ### The end of EXTRACT -/

theorem afterExtract_of_le {s : State} {rem : Memory} (h : rem.length ≤ s.cfg.maxBuf) (fs : List Frame) :
    afterExtract fs rem s = (s.setBuf rem).setOut (.frames fs) := if_neg (Nat.not_lt.mpr h)

theorem afterExtract_of_lt {s : State} {rem : Memory} (h : s.cfg.maxBuf < rem.length) (fs : List Frame) :
    afterExtract fs rem s =
      ((s.setBuf (Memory.last rem s.cfg.tailKeep)).setOvf (bumpOvf s.cfg s.ovfCount)).setOut (.frames fs) := if_pos h

@[simp] theorem afterExtract_out (fs : List Frame) (rem : Memory) (s : State) :
    (afterExtract fs rem s).out = .frames fs := by
  unfold afterExtract
  split <;> rfl

/-- The end of EXTRACT overwrites the buffer and the result it finds. -/
theorem afterExtract_setBuf_setOut (fs : List Frame) (rem : Memory) (s : State) (b : Memory) (o : Output) :
    afterExtract fs rem ((s.setBuf b).setOut o) = afterExtract fs rem s := rfl

theorem extractFrames_eq_of_extracts {skip : Nat} {b rem : Memory} {fs : List Frame} (h : Extracts skip b fs rem) :
    extractFrames skip b = (fs, rem) := by
  obtain ⟨hframes, hrem⟩ := extractLoopDetermined skip b _ _ _ _ (extracts_extractFrames skip b) h
  exact Prod.ext hframes hrem

/-- Whatever the loop of R92 gives, EXTRACT ends with it as R95 says. -/
theorem exec_extract_of_extracts {s : State} {fs : List Frame} {rem : Memory}
    (h : Extracts s.cfg.endScanSkip s.buf fs rem) : exec .extract s = .next (afterExtract fs rem s) := by
  rw [exec_extract, extractFrames_eq_of_extracts h, overflowPolicy_setBuf_setOut]

theorem runProgram_feed_of_extracts {s : State} {bs rem : List Byte} {fs : List Frame}
    (hcap : Memory.wf s.cfg.bufPhysCap (s.buf ++ bs) = true) (h : Extracts s.cfg.endScanSkip (s.buf ++ bs) fs rem) :
    runProgram (feed bs) s = .next ([.none, .frames fs], afterExtract fs rem s) := by
  rw [runProgram_feed hcap, extractFrames_eq_of_extracts h, overflowPolicy_setBuf_setOut]

/-- Settles O17: the loop of the model meets the relation of R92, and its end is that of R95. -/
theorem extractRunsTheLoop : Obligations.ExtractRunsTheLoop := by
  intro s
  have hloop := extracts_extractFrames s.cfg.endScanSkip s.buf
  exact ⟨_, _, hloop, exec_extract_of_extracts hloop⟩

/-! ### A buffer without a complete frame -/

/-- Settles O21: the loop stops at once, so the remainder is the buffer itself. -/
theorem extractWaitsForMoreBytes : Obligations.ExtractWaitsForMoreBytes := by
  intro s hno
  have hextract := exec_extract_of_extracts (.stop s.buf hno)
  constructor
  · intro hle
    rw [hextract, afterExtract_of_le hle]
    rfl
  · intro hlt
    rw [hextract, afterExtract_of_lt hlt]
    rfl

/-- Settles O20: the first EXTRACT leaves a short buffer without a complete frame. -/
theorem extractIdempotent : Obligations.ExtractIdempotent := by
  intro s t htail h
  obtain ⟨t', h', hlen, hno⟩ := extractEstablishesBound s htail
  obtain rfl : t' = t := by simpa [h'] using h
  obtain ⟨hcfg, -⟩ := exec_keeps_cfg_pending h
  rw [← hcfg] at hlen hno
  exact (extractWaitsForMoreBytes t' hno).1 hlen

/-- Settles O30: without a start marker the loop stops at once, on more than MAX_BUF bytes. -/
theorem markerFreeOverflow : Obligations.MarkerFreeOverflow := by
  intro s bs hbuf hno hlt htail hcap
  have hstop : Extracts s.cfg.endScanSkip (s.buf ++ bs) [] bs := by
    rw [hbuf]
    exact .stop bs (.inl hno)
  refine ⟨_, runProgram_feed_of_extracts (by rwa [hbuf]) hstop, ?_⟩
  rw [afterExtract_of_lt hlt]
  exact ⟨Memory.length_last (by omega), rfl⟩

/-! ### The number of frames -/

/-- Every cut takes at least END_SCAN_SKIP + 2 bytes off the buffer (R97). -/
theorem Extracts.length_mul_le {skip : Nat} {b rem : List Byte} {fs : List Frame} (h : Extracts skip b fs rem) :
    fs.length * (skip + 2) ≤ b.length := by
  induction h with
  | stop b _ => simp
  | cut b s e fs rem _ he _ ih =>
    obtain ⟨hle, -, hend, -⟩ := he
    obtain ⟨hbound, -⟩ := List.getElem?_eq_some_iff.mp hend
    rw [List.length_drop] at ih
    rw [List.length_cons, Nat.succ_mul]
    omega

/-- Settles O24, from the bytes that every cut takes. -/
theorem frameCountBounded : Obligations.FrameCountBounded := by
  intro s t fs _ h hout
  rw [exec_extract] at h
  cases h
  cases hout
  exact (Nat.le_div_iff_mul_le (Nat.succ_pos _)).mpr (extracts_extractFrames _ s.buf).length_mul_le

/-! ### Many APPENDs, one EXTRACT -/

theorem framesOf_append (os os' : List Output) : framesOf (os ++ os') = framesOf os ++ framesOf os' := by
  induction os with
  | nil => rfl
  | cons o os ih => cases o <;> simp [framesOf, ih]

/-- APPENDs within the capacity leave the buffer followed by all their bytes, and return no frame (R90). -/
theorem runProgram_map_append {s : State} {chunks : List (List Byte)}
    (h : Memory.wf s.cfg.bufPhysCap (s.buf ++ chunks.flatten) = true) :
    ∃ os o, runProgram (chunks.map .append) s = .next (os, (s.setBuf (s.buf ++ chunks.flatten)).setOut o)
      ∧ framesOf os = [] := by
  induction chunks generalizing s with
  | nil => exact ⟨[], s.out, by simp [runProgram, State.setOut], rfl⟩
  | cons c cs ih =>
    rw [List.flatten_cons, ← List.append_assoc] at h ⊢
    have hc : Memory.wf s.cfg.bufPhysCap (s.buf ++ c) = true := Memory.wf_of_length_le h (by simp)
    obtain ⟨os, o, hrest, hframes⟩ := ih (s := (s.setBuf (s.buf ++ c)).setOut .none) h
    refine ⟨.none :: os, o, ?_, hframes⟩
    rw [List.map_cons, runProgram_cons (appendConcatenates c s hc)]
    exact congrArg (andThen · _) hrest

/-- Settles O26: before the EXTRACT the two runs differ in the result at most, which EXTRACT overwrites. -/
theorem manyAppendsOneExtract : Obligations.ManyAppendsOneExtract := by
  intro s chunks hcap
  obtain ⟨fs, rem, hloop⟩ : ∃ fs rem, Extracts s.cfg.endScanSkip (s.buf ++ chunks.flatten) fs rem :=
    ⟨_, _, extracts_extractFrames _ _⟩
  obtain ⟨os, o, happends, hframes⟩ := runProgram_map_append hcap
  have hextract := exec_extract_of_extracts (s := (s.setBuf (s.buf ++ chunks.flatten)).setOut o) hloop
  rw [afterExtract_setBuf_setOut] at hextract
  refine ⟨os ++ [.frames fs], _, _, ?_, runProgram_feed_of_extracts hcap hloop, ?_⟩
  · rw [runProgram_append, happends, andThen_next, runProgram_cons hextract, runProgram, andThen_next, andThen_next]
    simp
  · rw [framesOf_append, hframes]
    rfl

/-! ### An EXTRACT after every chunk -/

/-- Bytes that arrive later do not move the first marker. -/
theorem IsLeastPair.append {b : List Byte} {p : Byte × Byte} {k i : Nat} (h : IsLeastPair b p k i) (c : List Byte) :
    IsLeastPair (b ++ c) p k i := by
  obtain ⟨hk, h0, h1, hleast⟩ := h
  obtain ⟨hlen, -⟩ := List.getElem?_eq_some_iff.mp h1
  have hsame : ∀ j, j ≤ i + 1 → (b ++ c)[j]? = b[j]? := fun j hj => List.getElem?_append_left (by omega)
  refine ⟨hk, by rwa [hsame i (by omega)], by rwa [hsame (i + 1) le_rfl], fun j hkj hji => ?_⟩
  rw [hsame j (by omega), hsame (j + 1) (by omega)]
  exact hleast j hkj hji

theorem slice_append_of_le {b : List Byte} {s e : Nat} (hs : s ≤ e) (he : e ≤ b.length) (c : List Byte) :
    slice (b ++ c) s e = slice b s e := by
  rw [slice, slice, List.drop_append_of_le_length (by omega), List.take_append_of_le_length]
  rw [List.length_drop]
  omega

/-- The loop may be interrupted: run on a first part of the bytes and then on its remainder with the rest, it cuts out what it
cuts out of the whole (R101). -/
theorem Extracts.append {skip : Nat} {b c rem rem' : List Byte} {fs fs' : List Frame} (h : Extracts skip b fs rem)
    (h' : Extracts skip (rem ++ c) fs' rem') : Extracts skip (b ++ c) (fs ++ fs') rem' := by
  induction h with
  | stop b _ => exact h'
  | cut b s e fs rem hs he _ ih =>
    have ⟨hle, _, hend, _⟩ := he
    obtain ⟨hbound, -⟩ := List.getElem?_eq_some_iff.mp hend
    rw [← slice_append_of_le (c := c) (by omega) (by omega)]
    refine .cut (b ++ c) s e _ _ (hs.append c) (he.append c) ?_
    rw [List.drop_append_of_le_length (by omega)]
    exact ih h'

/-- A run from `s` to `t` with the results `os` that fed the bytes `bs` and never truncated: its frames and its buffer are
those of the loop on all the bytes at once. -/
structure FeedsWhole (s : State) (bs : List Byte) (os : List Output) (t : State) : Prop where
  cfg : t.cfg = s.cfg
  ovf : t.ovfCount = s.ovfCount
  short : t.buf.length ≤ s.cfg.maxBuf
  loop : Extracts s.cfg.endScanSkip (s.buf ++ bs) (framesOf os) t.buf

theorem FeedsWhole.trans {s u t : State} {a b : List Byte} {os os' : List Output} (h : FeedsWhole s a os u)
    (h' : FeedsWhole u b os' t) : FeedsWhole s (a ++ b) (os ++ os') t where
  cfg := h'.cfg.trans h.cfg
  ovf := h'.ovf.trans h.ovf
  short := h.cfg ▸ h'.short
  loop := by
    rw [← List.append_assoc, framesOf_append]
    exact h.loop.append (h.cfg ▸ h'.loop)

theorem feedsWhole_of_not_bufferOverflow {s t : State} {c : List Byte} {os : List Output}
    (hovf : bufferOverflow (s.setBuf (Memory.append s.buf c)) = false) (h : runProgram (feed c) s = .next (os, t)) :
    FeedsWhole s c os t := by
  obtain ⟨u, -, happend, -⟩ := runProgram_cons_eq_next.mp h
  rw [exec_append, appendBytes_eq_next] at happend
  obtain ⟨hcap, -⟩ := happend
  have hloop := extracts_extractFrames s.cfg.endScanSkip (s.buf ++ c)
  have hshort : (extractFrames s.cfg.endScanSkip (s.buf ++ c)).2.length ≤ s.cfg.maxBuf :=
    (bufferOverflow_eq_false_iff _).mp hovf
  rw [runProgram_feed_of_extracts hcap hloop, afterExtract_of_le hshort] at h
  cases h
  exact ⟨rfl, rfl, hshort, by simpa [framesOf] using hloop⟩

/-- A chunked run that never truncates, taken FEED by FEED. -/
theorem feedsWhole_feedAll {s t : State} {c : List Byte} {cs : List (List Byte)} {os : List Output}
    (hfit : NoFeedTruncates (c :: cs) s) (h : runProgram (feedAll (c :: cs)) s = .next (os, t)) :
    FeedsWhole s (c :: cs).flatten os t := by
  induction cs generalizing s c os with
  | nil =>
    obtain ⟨hfirst, -⟩ := hfit
    simpa using feedsWhole_of_not_bufferOverflow hfirst (by simpa [feedAll] using h)
  | cons c' cs ih =>
    obtain ⟨hfirst, hrest⟩ := hfit
    have hsplit : feedAll (c :: c' :: cs) = feed c ++ feedAll (c' :: cs) := rfl
    rw [hsplit, runProgram_append, andThen_eq_next] at h
    obtain ⟨⟨os₁, u⟩, hfeed, h⟩ := h
    obtain ⟨⟨os₂, t'⟩, hfeeds, h⟩ := andThen_eq_next.mp h
    cases h
    exact (feedsWhole_of_not_bufferOverflow hfirst hfeed).trans (ih (hrest _ _ hfeed) hfeeds)

/-- Settles O27: the chunked run amounts to the loop on all the bytes, with a remainder short enough for one FEED as well. -/
theorem chunkingInvariance : Obligations.ChunkingInvariance := by
  intro s t c cs os hcap hfit h
  obtain ⟨-, hovf, hshort, hloop⟩ := feedsWhole_feedAll hfit h
  refine ⟨hovf, _, _, runProgram_feed_of_extracts hcap hloop, by simp [framesOf], ?_⟩
  rw [afterExtract_of_le hshort]
  exact ⟨rfl, rfl⟩

/-! ### The two readings of END_SCAN_SKIP -/

/-- 3E directly after a start marker: the bytes 3C 3A 3E, in which the two markers overlap (R93). -/
def HasOverlappingMarkers (b : List Byte) : Prop :=
  ∃ i : Nat, b[i]? = some 0x3C ∧ b[i + 1]? = some 0x3A ∧ b[i + 2]? = some 0x3E

theorem HasOverlappingMarkers.of_drop {b : List Byte} {n : Nat} (h : HasOverlappingMarkers (b.drop n)) :
    HasOverlappingMarkers b := by
  obtain ⟨i, h⟩ := h
  exact ⟨n + i, by simpa [Nat.add_assoc] using h⟩

/-- Where no markers overlap, no end marker stands one byte after a start marker. -/
theorem not_endMarker_of_startMarker {b : List Byte} {s : Nat} (hb : ¬ HasOverlappingMarkers b)
    (hs : IsLeastPair b startMarker 0 s) :
    ¬ (b[s + 1]? = some endMarker.1 ∧ b[s + 1 + 1]? = some endMarker.2) := by
  obtain ⟨-, h0, h1, -⟩ := hs
  exact fun hend => hb ⟨s, h0, h1, hend.2⟩

theorem NoCompleteFrame.skip_two {b : List Byte} (h : NoCompleteFrame 1 b) : NoCompleteFrame 2 b := by
  obtain hno | ⟨s, hs, hend⟩ := h
  · exact .inl hno
  · exact .inr ⟨s, hs, fun j hj => hend j (by omega)⟩

theorem IsLeastPair.succ {b : List Byte} {p : Byte × Byte} {k i : Nat} (h : IsLeastPair b p k i)
    (hk : ¬ (b[k]? = some p.1 ∧ b[k + 1]? = some p.2)) : IsLeastPair b p (k + 1) i := by
  obtain ⟨hki, h0, h1, hleast⟩ := h
  have hne : k ≠ i := by
    rintro rfl
    exact hk ⟨h0, h1⟩
  exact ⟨by omega, h0, h1, fun j hj => hleast j (by omega)⟩

/-- Where no markers overlap, the loop finds with END_SCAN_SKIP 2 the end markers it finds with 1. -/
theorem Extracts.skip_two {b rem : List Byte} {fs : List Frame} (h : Extracts 1 b fs rem)
    (hb : ¬ HasOverlappingMarkers b) : Extracts 2 b fs rem := by
  induction h with
  | stop b hstop => exact .stop b hstop.skip_two
  | cut b s e fs rem hs he _ ih =>
    have hend := he.succ (not_endMarker_of_startMarker hb hs)
    exact .cut b s e fs rem hs hend (ih fun hdrop => hb hdrop.of_drop)

/-- The same state with END_SCAN_SKIP set to `skip` (R9). -/
def State.withEndScanSkip (s : State) (skip : Nat) : State := { s with cfg := { s.cfg with endScanSkip := skip } }

/-- The end of EXTRACT does not look at END_SCAN_SKIP (R95). -/
theorem afterExtract_withEndScanSkip (fs : List Frame) (rem : Memory) (s : State) (skip : Nat) :
    afterExtract fs rem (s.withEndScanSkip skip) = (afterExtract fs rem s).withEndScanSkip skip := by
  by_cases h : s.cfg.maxBuf < rem.length
  · rw [afterExtract_of_lt h, afterExtract_of_lt (s := s.withEndScanSkip skip) h]
    rfl
  · rw [afterExtract_of_le (not_lt.mp h), afterExtract_of_le (s := s.withEndScanSkip skip) (not_lt.mp h)]
    rfl

theorem exec_extract_withEndScanSkip {s : State} {skip : Nat} {fs : List Frame} {rem : Memory}
    (h : Extracts skip s.buf fs rem) :
    exec .extract (s.withEndScanSkip skip) = .next ((afterExtract fs rem s).withEndScanSkip skip) := by
  rw [exec_extract_of_extracts (s := s.withEndScanSkip skip) h, afterExtract_withEndScanSkip]

/-- Settles O29: the two loops have one outcome, and the end of EXTRACT does not look at END_SCAN_SKIP. -/
theorem endScanSkipsAgree : Obligations.EndScanSkipsAgree := by
  intro s t hb h
  have hloop := extracts_extractFrames 1 s.buf
  have hloop₂ := hloop.skip_two fun ⟨i, hi⟩ => hb i hi
  obtain rfl := Host.Outcome.next.inj ((exec_extract_withEndScanSkip hloop).symm.trans h)
  exact exec_extract_withEndScanSkip hloop₂

end Sys2Proof.Machine
end

section
/-!
PROOFS. The reading decoder: DECODE as R110 words it in numbers, the bytes it reads, the ranges of a Reading, channels beyond
the frame, the end marker of a short frame read as field data, and purity.
-/

namespace Sys2Proof.Machine

/-! ### The Reading of R110 -/

/-- Channel `k` of a Reading in the fields of the frame (R62, R110). -/
theorem readingOf_ch_is (scale : Nat) (f : Frame) (ts : Nat) (k : Channel) :
    ChannelIs scale (field2 f (chanBase k + 2)) (field2 f (chanBase k + 5)) (field2 f (chanBase k + 9))
      (field1 f (chanBase k + 8)) ((readingOf scale f ts).ch k) := by
  rw [readingOf_ch, ← frameRead16_toNat, ← frameRead16_toNat, ← frameRead16_toNat, ← frameRead8_toNat]
  exact channelReading_is scale (modeByte f k) (rawRegs f k)

/-- Settles O35: each channel is read at its own base, 0, 10 and 20. -/
theorem decodeComputesReading : Obligations.DecodeComputesReading := fun f ts s =>
  ⟨readingOf s.cfg.powerScale f ts, exec_decode f ts s, rfl, readingOf_ch_is _ f ts .ch1, readingOf_ch_is _ f ts .ch2,
    readingOf_ch_is _ f ts .ch3⟩

theorem eq_readingOf_of_exec_decode {f : Frame} {ts : Nat} {s t : State} {r : Reading}
    (h : exec (.decode f ts) s = .next t) (hr : t.out = .reading r) : r = readingOf s.cfg.powerScale f ts := by
  rw [exec_decode] at h
  cases h
  exact (Output.reading.inj hr).symm

/-! ### The bytes DECODE reads -/

theorem channelFields_subset_frameFields (k : Channel) : channelFields k ⊆ frameFields := by
  cases k <;> simp [frameFields]

theorem SameToDecode.frameRead8_eq {f g : Frame} {a : Nat} (h : SameToDecode f g) (ha : (a, 1) ∈ frameFields) :
    frameRead8 f a = frameRead8 g a := by
  obtain ⟨hlen, hbytes⟩ := h _ ha
  by_cases hf : a + 1 ≤ f.length
  · have h0 : f[a]? = g[a]? := hbytes hf a (by omega) (by omega)
    rw [frameRead8, frameRead8, if_pos hf, if_pos (hlen.mp hf), List.getD_eq_getElem?_getD, h0,
      List.getD_eq_getElem?_getD]
  · rw [frameRead8_of_lt (not_le.mp hf), frameRead8_of_lt (not_le.mp (mt hlen.mpr hf))]

theorem SameToDecode.frameRead16_eq {f g : Frame} {a : Nat} (h : SameToDecode f g) (ha : (a, 2) ∈ frameFields) :
    frameRead16 f a = frameRead16 g a := by
  obtain ⟨hlen, hbytes⟩ := h _ ha
  by_cases hf : a + 2 ≤ f.length
  · have h0 : f[a]? = g[a]? := hbytes hf a (by omega) (by omega)
    have h1 : f[a + 1]? = g[a + 1]? := hbytes hf (a + 1) (by omega) (by omega)
    simp only [frameRead16, if_pos hf, if_pos (hlen.mp hf), List.getD_eq_getElem?_getD, h0, h1]
  · rw [frameRead16_of_lt (not_le.mp hf), frameRead16_of_lt (not_le.mp (mt hlen.mpr hf))]

theorem SameToDecode.modeByte_eq {f g : Frame} (h : SameToDecode f g) (k : Channel) : modeByte f k = modeByte g k :=
  h.frameRead8_eq (channelFields_subset_frameFields k (by simp [channelFields]))

theorem SameToDecode.rawRegs_eq {f g : Frame} (h : SameToDecode f g) (k : Channel) : rawRegs f k = rawRegs g k := by
  have hfield : ∀ a, (a, 2) ∈ channelFields k → frameRead16 f a = frameRead16 g a := fun a ha =>
    h.frameRead16_eq (channelFields_subset_frameFields k ha)
  rw [rawRegs, rawRegs, hfield _ (by simp [channelFields]), hfield _ (by simp [channelFields]),
    hfield _ (by simp [channelFields])]

theorem SameToDecode.readingOf_eq {f g : Frame} (h : SameToDecode f g) (scale ts : Nat) :
    readingOf scale f ts = readingOf scale g ts := by
  simp only [readingOf, h.modeByte_eq, h.rawRegs_eq]

theorem frameFields_end_le : ∀ x ∈ frameFields, x.1 + x.2 ≤ 31 := by decide

/-- Every field ends within the first 31 bytes, so the rest of a frame is not read (R122). -/
theorem sameToDecode_take (f : Frame) : SameToDecode f (f.take 31) := by
  intro x hx
  have hend := frameFields_end_le x hx
  refine ⟨by rw [List.length_take]; omega, fun _ a _ ha => ?_⟩
  rw [List.getElem?_take_of_lt (by omega)]

theorem exec_decode_eq_of_sameToDecode {f g : Frame} (h : SameToDecode f g) (ts : Nat) (s : State) :
    exec (.decode f ts) s = exec (.decode g ts) s := by
  rw [exec_decode, exec_decode, h.readingOf_eq]

/-- Settles O36: each of the twelve reads sees its own field alone. -/
theorem decodeIgnoresUnreadBytes : Obligations.DecodeIgnoresUnreadBytes :=
  ⟨fun _ _ ts s h => exec_decode_eq_of_sameToDecode h ts s,
    fun f ts s => exec_decode_eq_of_sameToDecode (sameToDecode_take f) ts s⟩

/-! ### The ranges of a Reading -/

/-- The quotient of two registers is within the range of one: the divisor is at least 1 (R116). -/
theorem ChannelIs.resistance_range {scale v i g mode : Nat} {c : ChannelReading} (h : ChannelIs scale v i g mode c)
    (hv : v ≤ u16Max) (hg : g ≤ u16Max) : 0 ≤ c.resistance ∧ c.resistance ≤ u16Max := by
  obtain ⟨-, -, hres, -⟩ := h
  have hv' : (v : Rat) ≤ u16Max := by exact_mod_cast hv
  have hg' : (g : Rat) ≤ u16Max := by exact_mod_cast hg
  rw [hres]
  split
  · exact ⟨g.cast_nonneg, hg'⟩
  · split
    · next hi =>
      have hi' : (1 : Rat) ≤ i := by exact_mod_cast Nat.one_le_iff_ne_zero.mpr hi
      exact ⟨by positivity, (div_le_self v.cast_nonneg hi').trans hv'⟩
    · exact ⟨le_rfl, Nat.cast_nonneg _⟩

/-- The ancillary register, too, is within the range of the product, at every scale from 1 on (R117, R118). -/
theorem ChannelIs.power_le {scale v i g mode : Nat} {c : ChannelReading} (h : ChannelIs scale v i g mode c)
    (hscale : 1 ≤ scale) (hv : v ≤ u16Max) (hi : i ≤ u16Max) (hg : g ≤ u16Max) :
    c.power ≤ u16Max * u16Max * scale := by
  obtain ⟨-, -, -, hpower⟩ := h
  rw [hpower]
  split
  · calc g ≤ u16Max * u16Max * 1 := hg.trans (by decide)
      _ ≤ u16Max * u16Max * scale := Nat.mul_le_mul_left _ hscale
  · exact Nat.mul_le_mul_right scale (Nat.mul_le_mul hv hi)

theorem powerBits_default : powerBits 1000 = 42 := by decide

theorem toNat_le_u16Max (v : U16) : v.toNat ≤ u16Max := Nat.le_of_lt_succ v.isLt

/-- Settles O37: the registers are at most 65535, and the port is as wide as the bound on the power needs. -/
theorem readingRanges : Obligations.ReadingRanges := by
  intro f ts s t r k hscale h hr
  obtain rfl := eq_readingOf_of_exec_decode h hr
  have hk := channelReading_is s.cfg.powerScale (modeByte f k) (rawRegs f k)
  rw [← readingOf_ch _ f ts] at hk
  obtain ⟨hres, hres'⟩ := hk.resistance_range (toNat_le_u16Max _) (toNat_le_u16Max _)
  have hpower := hk.power_le hscale (toNat_le_u16Max _) (toNat_le_u16Max _) (toNat_le_u16Max _)
  refine ⟨hres, hres', hpower, ?_, fun h1000 => h1000 ▸ powerBits_default⟩
  rw [rdPower, BitVec.toNat_ofNat, Nat.mod_eq_of_lt (lt_two_pow_powerBits hpower)]

/-! ### Short frames -/

/-- Settles O38: no field of the channel lies inside the frame, and zero registers read as the zero channel. -/
theorem absentChannelIsZero : Obligations.AbsentChannelIsZero := by
  intro f ts s t r k h hr hlen
  rw [eq_readingOf_of_exec_decode h hr]
  exact readingOf_ch_of_length_lt hlen _ ts

theorem frameRead8_of_getElem? {f : Frame} {a : Nat} {x : Byte} (h : f[a]? = some x) : frameRead8 f a = x := by
  obtain ⟨ha, -⟩ := List.getElem?_eq_some_iff.mp h
  rw [frameRead8, if_pos (by omega), List.getD_eq_getElem?_getD, h, Option.getD_some]

theorem frameRead16_of_getElem? {f : Frame} {a : Nat} {x : Byte} (h : f[a + 1]? = some x) :
    frameRead16 f a = u16 (f.getD a 0) x := by
  obtain ⟨ha, -⟩ := List.getElem?_eq_some_iff.mp h
  rw [frameRead16, if_pos (by omega), List.getD_eq_getElem?_getD (i := a + 1), h, Option.getD_some]

section EndMarker

/-! A frame that ends in the end marker: what a field reads that ends with the frame, or one byte before it (R121). -/

variable {f : Frame} {a : Nat} (h3A : f[f.length - 2]? = some 0x3A) (h3E : f[f.length - 1]? = some 0x3E)

include h3E in
theorem frameRead8_endMarker_last (hlen : f.length = a + 1) : frameRead8 f a = 0x3E := by
  rw [hlen] at h3E
  exact frameRead8_of_getElem? h3E

include h3A in
theorem frameRead8_endMarker_first (hlen : f.length = a + 2) : frameRead8 f a = 0x3A := by
  rw [hlen] at h3A
  exact frameRead8_of_getElem? h3A

include h3A h3E in
theorem frameRead16_endMarker (hlen : f.length = a + 2) : frameRead16 f a = 0x3A3E := by
  rw [hlen] at h3A h3E
  rw [frameRead16_of_getElem? h3E, List.getD_eq_getElem?_getD, show f[a]? = some 0x3A from h3A]
  rfl

include h3A in
theorem frameRead16_endMarker_first (hlen : f.length = a + 3) :
    (frameRead16 f a).toNat = byteNat f a * 256 + 0x3A := by
  rw [hlen] at h3A
  rw [frameRead16_of_getElem? h3A, u16_toNat]
  rfl

end EndMarker

/-- The fields of a later channel begin past the end of the fields of this one (R62). -/
theorem chanBase_add_chStride_le {k j : Channel} (h : chanBase k < chanBase j) : chanBase k + chStride ≤ chanBase j := by
  revert h
  cases k <;> cases j <;> decide

theorem rawRegs_of_length_lt {f : Frame} {k : Channel} (h : f.length < chanBase k + 4) : rawRegs f k = ⟨0, 0, 0⟩ := by
  rw [rawRegs, frameRead16_of_lt (by omega), frameRead16_of_lt (by omega), frameRead16_of_lt (by omega)]

/-- Settles O39: at each length the marker's bytes are the last ones of one field, and every later field lies beyond the
frame. -/
theorem shortFrameFieldsHoldMarkerBytes : Obligations.ShortFrameFieldsHoldMarkerBytes := by
  intro f k h3A h3E
  have hi (h : f.length < chanBase k + 7) : (rawRegs f k).i = 0 := frameRead16_of_lt h
  have hmode (h : f.length < chanBase k + 9) : modeByte f k = 0 := frameRead8_of_lt h
  have hg (h : f.length < chanBase k + 11) : (rawRegs f k).g = 0 := frameRead16_of_lt h
  refine ⟨fun h => ⟨?_, hi (by omega), hmode (by omega), hg (by omega)⟩,
    fun h => ⟨?_, hi (by omega), hmode (by omega), hg (by omega)⟩,
    fun h => ⟨?_, hmode (by omega), hg (by omega)⟩, fun h => ⟨?_, hmode (by omega), hg (by omega)⟩,
    fun h => ⟨?_, hg (by omega)⟩, fun h => ⟨?_, hg (by omega)⟩, fun h => ?_, fun h => ?_, fun h j hj => ?_⟩
  · exact frameRead16_endMarker h3A h3E h
  · exact frameRead16_endMarker_first h3A h
  · exact frameRead16_endMarker h3A h3E h
  · exact frameRead16_endMarker_first h3A h
  · exact frameRead8_endMarker_last h3E h
  · exact frameRead8_endMarker_first h3A h
  · exact frameRead16_endMarker h3A h3E h
  · exact frameRead16_endMarker_first h3A h
  · have hbeyond : chanBase k + 10 ≤ chanBase j := chanBase_add_chStride_le hj
    exact ⟨rawRegs_of_length_lt (by omega), frameRead8_of_lt (by omega)⟩

/-! ### Purity -/

/-- Settles O56: of the state the two results name the parameters alone. -/
theorem decodeAndEncodeArePure : Obligations.DecodeAndEncodeArePure := by
  rintro s s' t t' i hcfg (⟨f, ts, rfl⟩ | ⟨ch, m, v, rfl⟩) h h'
  · rw [exec_decode, hcfg] at h
    rw [exec_decode] at h'
    cases h
    cases h'
    rfl
  · rw [exec_encode, hcfg] at h
    rw [exec_encode] at h'
    cases h
    cases h'
    rfl

end Sys2Proof.Machine
end

section
/-!
PROOFS. The command encoder: the value field by the ranges of its number (R73, R133), the packet and the error of ENCODE (R130
to R135), and what EXTRACT makes of a packet that is looped back (R137, R138).
-/

namespace Sys2Proof.Machine

/-! ### The value field by ranges -/

theorem clamp_of_nonpos {q : Rat} (h : q ≤ 0) : clamp q 0 (u16Max : Rat) = 0 := by
  rcases h.lt_or_eq with hlt | rfl
  · exact if_pos hlt
  · simp [clamp, u16Max_cast]

theorem clamp_of_ge {q : Rat} (h : 65535 ≤ q) : clamp q 0 (u16Max : Rat) = 65535 := by
  rw [clamp, u16Max_cast, if_neg (by linarith)]
  rcases h.lt_or_eq with hlt | rfl
  · exact if_pos hlt
  · exact if_neg (lt_irrefl _)

theorem clamp_of_mem {q : Rat} (h0 : 0 ≤ q) (h1 : q ≤ 65535) : clamp q 0 (u16Max : Rat) = q := by
  rw [clamp, u16Max_cast, if_neg (not_lt.mpr h0), if_neg (not_lt.mpr h1)]

theorem valueField_toNat_of_nonpos {q : Rat} (h : q ≤ 0) : (valueField q).toNat = 0 := by
  have hv := valueField_toNat q
  rw [clamp_of_nonpos h, trunc_of_nonneg le_rfl, Int.floor_zero] at hv
  exact_mod_cast hv

theorem valueField_toNat_of_ge {q : Rat} (h : 65535 ≤ q) : (valueField q).toNat = 65535 := by
  have hv := valueField_toNat q
  rw [clamp_of_ge h, trunc_of_nonneg (by norm_num), Int.floor_ofNat] at hv
  exact_mod_cast hv

theorem valueField_toNat_of_mem {q : Rat} (h0 : 0 ≤ q) (h1 : q ≤ 65535) : ((valueField q).toNat : Int) = ⌊q⌋ := by
  rw [valueField_toNat, clamp_of_mem h0 h1, trunc_of_nonneg h0]

/-- Settles O43, by the three ranges of the number: truncation keeps a number in its range. -/
theorem truncateThenClampAgrees : Obligations.TruncateThenClampAgrees := by
  intro q
  rcases lt_or_ge q 0 with hneg | h0
  · have htrunc := trunc_of_neg hneg
    rw [valueField_toNat_of_nonpos hneg.le]
    omega
  rw [trunc_of_nonneg h0]
  rcases le_total 65535 q with hge | hle
  · have hfloor : 65535 ≤ ⌊q⌋ := Int.le_floor.mpr (by exact_mod_cast hge)
    rw [valueField_toNat_of_ge hge]
    omega
  · rw [← valueField_toNat_of_mem h0 hle]
    omega

/-- The value field is what ENCODE sends for its number (R133). -/
theorem sentAs_valueField (q : Rat) : SentAs q (valueField q).toNat := by
  refine ⟨valueField_toNat_of_nonpos, valueField_toNat_of_ge, fun h0 hlt => ?_⟩
  have hfloor : (((valueField q).toNat : Int) : Rat) = (⌊q⌋ : Int) := by rw [valueField_toNat_of_mem h0 hlt.le]
  rw [Int.cast_natCast] at hfloor
  rw [hfloor]
  exact ⟨Int.floor_le q, Int.lt_floor_add_one q⟩

/-! ### ENCODE -/

theorem hiByte_eq_ofNat (n : U16) : hiByte n = BitVec.ofNat 8 (n.toNat / 256) := by
  rw [← hiByte_toNat, BitVec.ofNat_toNat, BitVec.setWidth_eq]

theorem loByte_eq_ofNat (n : U16) : loByte n = BitVec.ofNat 8 (n.toNat % 256) := by
  rw [← loByte_toNat, BitVec.ofNat_toNat, BitVec.setWidth_eq]

/-- Settles O42: the packet of the value field, whose number is the one ENCODE sends. -/
theorem encodeBuildsPacket : Obligations.EncodeBuildsPacket := by
  refine ⟨⟨rfl, rfl, rfl⟩, ⟨rfl, rfl, rfl⟩, fun c m v q s hv => ?_⟩
  refine ⟨packetOf c m (valueField q), (valueField q).toNat, ?_, sentAs_valueField q, toNat_le_u16Max _, ?_⟩
  · rw [exec_encode, encodeCommand_known hv]
    rfl
  · rw [packetOf_toList, packetBytes, hiByte_eq_ofNat, loByte_eq_ofNat]

/-- ENCODE with recognised identifiers and no number (R134). -/
theorem encodeCommand_of_numberOf_eq_none {cfg : Config} {v : CmdValue} (h : numberOf cfg v = none) (c : Channel)
    (m : Method) : encodeCommand cfg (.known c) (.known m) v = .error .invalidValue := by
  simp [encodeCommand, h]

/-- Settles O44: the three checks in their order, and the two things a port word can denote. -/
theorem encodeReportsFirstBadOperand : Obligations.EncodeReportsFirstBadOperand := by
  refine ⟨fun b m v s => exec_encode _ m v s, fun c b v s => exec_encode _ _ v s, fun c m s => ?_, fun c m w s => ?_⟩
  · rw [exec_encode, encodeCommand_of_numberOf_eq_none rfl]
    rfl
  · rw [exec_encode]
    cases hw : valWord s.cfg w with
    | none =>
      rw [encodeCommand_of_numberOf_eq_none (v := .portWord w) hw]
      rfl
    | some q =>
      rw [encodeCommand_known (v := .portWord w) hw, Option.elim_some, exec_encode, encodeCommand_known (v := .number q) rfl]

/-! ### The markers in a packet -/

theorem eq_u16_iff (n : U16) (hi lo : Byte) : n = u16 hi lo ↔ hiByte n = hi ∧ loByte n = lo := by
  constructor
  · rintro rfl
    exact ⟨hiByte_u16 hi lo, loByte_u16 hi lo⟩
  · rintro ⟨rfl, rfl⟩
    exact (u16_hiByte_loByte n).symm

theorem channelCode_ne_endMarkerByte (c : Channel) : c.code ≠ 0x3A#8 ∧ c.code ≠ 0x3E#8 := by
  cases c <;> decide

theorem methodCode_ne_endMarkerByte (m : Method) : m.code ≠ 0x3A#8 ∧ m.code ≠ 0x3E#8 := by
  cases m <;> decide

/-- The start marker of a packet is its first two bytes (R70). -/
theorem packetOf_startMarker (c : Channel) (m : Method) (n : U16) : IsLeastPair (packetOf c m n).toList startMarker 0 0 :=
  ⟨le_rfl, rfl, rfl, fun _ _ hj => absurd hj (Nat.not_lt_zero _)⟩

/-- The places of the end marker in a packet: its last two bytes, the byte before the value with a high byte 3E, and the value
3A3E (R137, R138). -/
theorem packetOf_endMarker_iff (c : Channel) (m : Method) (n : U16) (j : Nat) :
    ((packetOf c m n).toList[j]? = some endMarker.1 ∧ (packetOf c m n).toList[j + 1]? = some endMarker.2)
      ↔ (j = 5 ∧ hiByte n = 0x3E) ∨ (j = 6 ∧ n = 0x3A3E) ∨ j = 8 := by
  obtain ⟨hc1, hc2⟩ := channelCode_ne_endMarkerByte c
  obtain ⟨hm1, hm2⟩ := methodCode_ne_endMarkerByte m
  have hn : n = 0x3A3E ↔ hiByte n = 0x3A ∧ loByte n = 0x3E := eq_u16_iff n 0x3A 0x3E
  rw [packetOf_toList, packetBytes, hn]
  rcases lt_or_ge j 10 with hj | hj
  · interval_cases j <;> simp [endMarker, hc1, hc2, hm1, hm2]
  · rw [List.getElem?_eq_none (by exact hj)]
    exact iff_of_false (by simp) (by omega)

/-- The first end marker of a packet, on either reading of END_SCAN_SKIP: the earliest of its places. -/
theorem packetOf_endMarker {c : Channel} {m : Method} {n : U16} {skip e : Nat} (hskip : skip = 1 ∨ skip = 2)
    (he : (e = 5 ∧ hiByte n = 0x3E) ∨ (e = 6 ∧ n = 0x3A3E) ∨ (e = 8 ∧ hiByte n ≠ 0x3E ∧ n ≠ 0x3A3E)) :
    IsLeastPair (packetOf c m n).toList endMarker (0 + skip) e := by
  have hplace := (packetOf_endMarker_iff c m n e).mpr (he.imp_right (Or.imp_right And.left))
  refine ⟨by omega, hplace.1, hplace.2, fun j _ hj hbefore => ?_⟩
  rw [packetOf_endMarker_iff] at hbefore
  rcases he with ⟨rfl, -⟩ | ⟨rfl, rfl⟩ | ⟨rfl, hhi, hn⟩
  · omega
  · have hhi : hiByte 0x3A3E ≠ 0x3E := by decide
    simp only [hhi, and_false, false_or] at hbefore
    omega
  · simp only [hhi, hn, and_false, false_or] at hbefore
    omega

/-! ### A packet looped back -/

/-- EXTRACT's first cut of a packet starts with its first byte. -/
theorem extracts_packetOf {c : Channel} {m : Method} {n : U16} {skip e : Nat} {fs : List Frame} {rem : List Byte}
    (he : IsLeastPair (packetOf c m n).toList endMarker (0 + skip) e)
    (hr : Extracts skip ((packetOf c m n).toList.drop (e + 2)) fs rem) :
    Extracts skip (packetOf c m n).toList ((packetOf c m n).toList.take (e + 2) :: fs) rem :=
  .cut _ 0 e fs rem (packetOf_startMarker c m n) he hr

/-- FEED of a packet to an empty buffer, by the packet's first end marker. -/
theorem runProgram_feed_packetOf {s : State} {c : Channel} {m : Method} {n : U16} {e : Nat} {fs : List Frame}
    {rem : List Byte} (hbuf : s.buf = []) (hcap : Memory.wf s.cfg.bufPhysCap (packetOf c m n).toList = true)
    (he : IsLeastPair (packetOf c m n).toList endMarker (0 + s.cfg.endScanSkip) e)
    (hr : Extracts s.cfg.endScanSkip ((packetOf c m n).toList.drop (e + 2)) fs rem) :
    runProgram (feed (packetOf c m n).toList) s
      = .next ([.none, .frames ((packetOf c m n).toList.take (e + 2) :: fs)],
          afterExtract ((packetOf c m n).toList.take (e + 2) :: fs) rem s) :=
  runProgram_feed_of_extracts (by rwa [hbuf]) (by rw [hbuf]; exact extracts_packetOf he hr)

/-- An empty remainder never overflows: EXTRACT leaves an empty buffer as it was. -/
theorem afterExtract_nil {s : State} (hbuf : s.buf = []) (fs : List Frame) :
    afterExtract fs [] s = s.setOut (.frames fs) := by
  rw [afterExtract_of_le (Nat.zero_le _), ← hbuf, State.setBuf_self]

theorem noPair_of_length_le {b : List Byte} {p : Byte × Byte} {k : Nat} (h : b.length ≤ k + 1) : NoPair b p k := by
  rintro j hj ⟨-, hsnd⟩
  obtain ⟨hlt, -⟩ := List.getElem?_eq_some_iff.mp hsnd
  omega

theorem NoPair.cons {a : Byte} {b : List Byte} {p : Byte × Byte} (h : NoPair b p 0) (ha : a ≠ p.1) : NoPair (a :: b) p 0 := by
  rintro (_ | j) _ ⟨hfst, hsnd⟩
  · exact ha (Option.some.inj hfst)
  · exact h j (Nat.zero_le j) ⟨hfst, hsnd⟩

theorem extracts_nil (skip : Nat) : Extracts skip [] [] [] := .stop [] (.inl (noPair_of_length_le (Nat.zero_le _)))

/-- The end marker alone holds no start marker. -/
theorem noPair_startMarker_endMarker : NoPair [0x3A, 0x3E] startMarker 0 := (find_eq_none_iff ..).mp (by decide)

/-- Settles O50: the first end marker of a clean packet is its last two bytes, so the one cut takes all of it. -/
theorem packetLoopback : Obligations.PacketLoopback := by
  intro s c m n hskip hbuf hcap hhi hn
  have hend := packetOf_endMarker (c := c) (m := m) hskip (.inr (.inr ⟨rfl, hhi, hn⟩))
  refine ⟨?_, rfl, rfl, ?_⟩
  · rw [runProgram_feed_packetOf hbuf hcap hend (extracts_nil _), afterExtract_nil hbuf]
    rfl
  · change (hiByte n).toNat * 256 + (loByte n).toNat = n.toNat
    rw [← u16_toNat, u16_hiByte_loByte]

/-- What an early end marker at packet index 6 leaves holds no complete frame, but for the low byte 3C, with which it starts
with a start marker, under END_SCAN_SKIP 1 (R93). -/
theorem noCompleteFrame_lowByteRest {skip : Nat} {lo : Byte} (h : lo ≠ 0x3C ∨ skip = 2) :
    NoCompleteFrame skip [lo, 0x3A, 0x3E] := by
  rcases h with hlo | rfl
  · exact .inl (noPair_startMarker_endMarker.cons hlo)
  · rcases noPair_or_exists_isLeastPair [lo, 0x3A, 0x3E] startMarker 0 with hno | ⟨s, hs⟩
    · exact .inl hno
    · exact .inr ⟨s, hs, noPair_of_length_le (Nat.le_add_left 3 s)⟩

/-- Settles O51, by the place of the first end marker; the rest is a frame of its own exactly where it starts with a start
marker whose second byte may be used again. -/
theorem packetEarlyEndMarker : Obligations.PacketEarlyEndMarker := by
  intro s c m n hskip hbuf hcap
  refine ⟨fun hhi hrest => ?_, fun hn hone => ?_, fun hn => ?_⟩
  · have hlo : loByte n ≠ 0x3C ∨ s.cfg.endScanSkip = 2 :=
      hrest.imp_left fun hn hlo => hn ((eq_u16_iff n 0x3E 0x3C).mpr ⟨hhi, hlo⟩)
    exact runProgram_feed_packetOf hbuf hcap (packetOf_endMarker hskip (.inl ⟨rfl, hhi⟩))
      (.stop _ (noCompleteFrame_lowByteRest hlo))
  · subst hn
    have hsecond : Extracts s.cfg.endScanSkip [0x3C, 0x3A, 0x3E] [[0x3C, 0x3A, 0x3E]] [] := by
      rw [hone]
      exact extracts_extractFrames 1 [0x3C, 0x3A, 0x3E]
    rw [runProgram_feed_packetOf hbuf hcap (packetOf_endMarker hskip (.inl ⟨rfl, by decide⟩)) hsecond, afterExtract_nil hbuf]
    rfl
  · subst hn
    exact runProgram_feed_packetOf hbuf hcap (packetOf_endMarker hskip (.inr (.inl ⟨rfl, rfl⟩)))
      (.stop _ (.inl noPair_startMarker_endMarker))

end Sys2Proof.Machine
end

section
/-!
PROOFS. The ends of a step that runs no instruction, and the ports that carry ENCODE's result.
-/

namespace Sys2Proof.Machine

/-! ### A step without an instruction -/

theorem step_of_pending_nil {s : State} (hp : s.pending = []) : step s = .next s.dropResult := by
  simp [step, hp]

theorem step_of_decode_error {s : State} {r : Request} {rest : List Request} {e : DecodeError}
    (hp : s.pending = r :: rest) (hd : decode r = .error e) : step s = .refused (.undecodable e) := by
  simp [step, hp, hd]

theorem step_of_not_wf {s : State} {r : Request} {rest : List Request} {i : Instr} (hp : s.pending = r :: rest)
    (hd : decode r = .ok i) (hw : i.wf s.cfg = false) : step s = .refused .illFormed := by
  simp [step, hp, hd, hw]

/-- Settles O6: one equation of `step` for each end at which it runs nothing. -/
theorem stepWithoutInstruction : Obligations.StepWithoutInstruction :=
  ⟨fun _ hp => step_of_pending_nil hp, fun _ _ _ _ hp hd => step_of_decode_error hp hd,
    fun _ _ _ _ hp hd hw => step_of_not_wf hp hd hw⟩

/-! ### The ports of ENCODE's result -/

/-- Settles O45: each port is defined by the two forms of a result, and the code by the three errors (R151). -/
theorem errorPortsOfResult : Obligations.ErrorPortsOfResult :=
  ⟨fun _ => ⟨rfl, rfl⟩, rfl, rfl, rfl, fun _ => rfl⟩

end Sys2Proof.Machine
end

section
/-!
PROOFS. RESET: what the input `rst` selects.
-/

namespace Sys2Proof.Machine

/-- With `rst` asserted the op and the operands are not read (R170). -/
theorem decodePorts_of_rst {p : Ports} (hrst : p.rst = 1) : decodePorts p = .reset := if_pos hrst

/-- Settles O32: RESET's effect is `exec_reset`, and `rst` is the first input the operation select reads. -/
theorem resetEmptiesAndClears : Obligations.ResetEmptiesAndClears :=
  ⟨exec_reset, fun _ hrst => congrArg Except.ok (decodePorts_of_rst hrst)⟩

end Sys2Proof.Machine
end
